-- ==== Sys2Proof/Word.lean ====
section
/-! DEFINITION. The word types of the machine (10_state.md R20, R24, R25; 30_encoding.md R70, R71). -/

namespace Sys2Proof

/-- A byte of memory or a general register (R20, R38, R52). All values are unsigned (R9). -/
abbrev Byte := BitVec 8

/-- A 16-bit value: the index register, the program counter, a stack slot (R24, R25, R27). -/
abbrev Addr := BitVec 16

/-- A 16-bit opcode (R70); bit 0 is the least significant bit (R9). -/
abbrev Opcode := BitVec 16

/-- A 4-bit field of an opcode (R71). -/
abbrev Nibble := BitVec 4

/-- The number of a general register, 0 to 15 (R20, R72). -/
abbrev RegIdx := Fin 16

/-- A key's hex code, 0x0 to 0xF (R33, R207). -/
abbrev KeyCode := Fin 16

/-- `VF`, the register that is also the flag output (R21). -/
abbrev vf : RegIdx := 15

/-- A byte widened to 16 bits with zeros (`zext_16`, R9). -/
abbrev zext16 (b : Byte) : Addr := b.setWidth 16

end Sys2Proof
end

