-- ==== Sys2Proof/Syntax.lean ====
section
/-! DEFINITION. The instructions: one constructor for each of the 34 rows of the catalogue (30_encoding.md R73),
in the table's order. Register numbers are `Fin 16`; an address `nnn` is held already widened to the 16 bits of `pc` and
`I` (R72), and a sprite height `n` as a count: `Instr.wf` (WellFormed.lean) says which of these the encoding admits. -/

namespace Sys2Proof

inductive Instr where
  /-- `00E0` CLS (R170). -/
  | cls
  /-- `00EE` RET (R134). -/
  | ret
  /-- `1nnn` JP nnn (R132). -/
  | jp (nnn : Addr)
  /-- `2nnn` CALL nnn (R133). -/
  | call (nnn : Addr)
  /-- `3xnn` SE Vx, nn (R141). -/
  | seImm (x : RegIdx) (nn : Byte)
  /-- `4xnn` SNE Vx, nn (R142). -/
  | sneImm (x : RegIdx) (nn : Byte)
  /-- `5xy0` SE Vx, Vy (R143). -/
  | seReg (x y : RegIdx)
  /-- `6xnn` LD Vx, nn (R111). -/
  | ldImm (x : RegIdx) (nn : Byte)
  /-- `7xnn` ADD Vx, nn (R112). -/
  | addImm (x : RegIdx) (nn : Byte)
  /-- `8xy0` LD Vx, Vy (R113). -/
  | ldReg (x y : RegIdx)
  /-- `8xy1` OR Vx, Vy (R114). -/
  | orReg (x y : RegIdx)
  /-- `8xy2` AND Vx, Vy (R115). -/
  | andReg (x y : RegIdx)
  /-- `8xy3` XOR Vx, Vy (R116). -/
  | xorReg (x y : RegIdx)
  /-- `8xy4` ADD Vx, Vy (R117). -/
  | addReg (x y : RegIdx)
  /-- `8xy5` SUB Vx, Vy (R118). -/
  | subReg (x y : RegIdx)
  /-- `8xy6` SHR Vx, with Vy encoded (R119). -/
  | shr (x y : RegIdx)
  /-- `8xy7` SUBN Vx, Vy (R120). -/
  | subn (x y : RegIdx)
  /-- `8xyE` SHL Vx, with Vy encoded (R121). -/
  | shl (x y : RegIdx)
  /-- `9xy0` SNE Vx, Vy (R144). -/
  | sneReg (x y : RegIdx)
  /-- `Annn` LD I, nnn (R150). -/
  | ldI (nnn : Addr)
  /-- `Bnnn` JP V0, nnn (R135). -/
  | jpV0 (nnn : Addr)
  /-- `Cxnn` RND Vx, nn (R184). -/
  | rnd (x : RegIdx) (nn : Byte)
  /-- `Dxyn` DRW Vx, Vy, n (R171). -/
  | drw (x y : RegIdx) (n : Nat)
  /-- `Ex9E` SKP Vx (R145). -/
  | skp (x : RegIdx)
  /-- `ExA1` SKNP Vx (R146). -/
  | sknp (x : RegIdx)
  /-- `Fx07` LD Vx, DT (R180). -/
  | ldVxDT (x : RegIdx)
  /-- `Fx0A` LD Vx, K (R183). -/
  | ldVxK (x : RegIdx)
  /-- `Fx15` LD DT, Vx (R181). -/
  | ldDTVx (x : RegIdx)
  /-- `Fx18` LD ST, Vx (R182). -/
  | ldSTVx (x : RegIdx)
  /-- `Fx1E` ADD I, Vx (R151). -/
  | addI (x : RegIdx)
  /-- `Fx29` LD F, Vx (R152). -/
  | ldF (x : RegIdx)
  /-- `Fx33` LD B, Vx (R153). -/
  | ldB (x : RegIdx)
  /-- `Fx55` LD [I], Vx (R154). -/
  | stRegs (x : RegIdx)
  /-- `Fx65` LD Vx, [I] (R155). -/
  | ldRegs (x : RegIdx)
  deriving DecidableEq, Repr

end Sys2Proof
end

