-- ==== Sys2Proof/WellFormed.lean ====
section
/-! DEFINITION. The operand values the encoding admits (30_encoding.md R71, R72). Register numbers and immediate bytes
carry their bound in their type; an address and a sprite height are checked here. -/

namespace Sys2Proof

/-- `nnn` is "an unsigned 12-bit address" (R72). -/
def wfAddr (nnn : Addr) : Bool := decide (nnn.toNat ≤ 0xFFF)

/-- `n` is "an unsigned count 0 to 15" (R72). -/
def wfHeight (n : Nat) : Bool := decide (n ≤ 15)

/-- Every operand of the instruction is one its encoding admits. -/
def Instr.wf : Instr → Bool
  | .cls => true
  | .ret => true
  | .jp nnn => wfAddr nnn
  | .call nnn => wfAddr nnn
  | .seImm _ _ => true
  | .sneImm _ _ => true
  | .seReg _ _ => true
  | .ldImm _ _ => true
  | .addImm _ _ => true
  | .ldReg _ _ => true
  | .orReg _ _ => true
  | .andReg _ _ => true
  | .xorReg _ _ => true
  | .addReg _ _ => true
  | .subReg _ _ => true
  | .shr _ _ => true
  | .subn _ _ => true
  | .shl _ _ => true
  | .sneReg _ _ => true
  | .ldI nnn => wfAddr nnn
  | .jpV0 nnn => wfAddr nnn
  | .rnd _ _ => true
  | .drw _ _ n => wfHeight n
  | .skp _ => true
  | .sknp _ => true
  | .ldVxDT _ => true
  | .ldVxK _ => true
  | .ldDTVx _ => true
  | .ldSTVx _ => true
  | .addI _ => true
  | .ldF _ => true
  | .ldB _ => true
  | .stRegs _ => true
  | .ldRegs _ => true

end Sys2Proof
end

