-- ==== Sys2Proof/Decode.lean ====
section
/-! DEFINITION. From bits to instructions and back (30_encoding.md R70 to R77): the fields of an opcode, the decoder,
total on any bytes and refusing by name, and after it the encoder. -/

namespace Sys2Proof

/-! ## Fields (R71) -/

/-- `op[15:12]`, the instruction family. -/
def opFamily (op : Opcode) : Nibble := op.extractLsb' 12 4
/-- `op[11:8]`. -/
def opX (op : Opcode) : Nibble := op.extractLsb' 8 4
/-- `op[7:4]`. -/
def opY (op : Opcode) : Nibble := op.extractLsb' 4 4
/-- `op[3:0]`. -/
def opN (op : Opcode) : Nibble := op.extractLsb' 0 4
/-- `op[7:0]`. -/
def opNN (op : Opcode) : Byte := op.extractLsb' 0 8
/-- `op[11:0]`. -/
def opNNN (op : Opcode) : BitVec 12 := op.extractLsb' 0 12

/-- A 4-bit field as a register number (R72). -/
def regOfNibble (v : Nibble) : RegIdx := ⟨v.toNat, v.isLt⟩
/-- A register number as a 4-bit field. -/
def nibbleOfReg (x : RegIdx) : Nibble := BitVec.ofNat 4 x.val
/-- `zext_16(nnn)` (R72). -/
def addrOfNNN (v : BitVec 12) : Addr := v.setWidth 16

/-! ## Decoding -/

/-- Why bytes are no instruction. -/
inductive DecodeReject where
  /-- The opcode matches no row of R73 (R76). -/
  | noSuchInstruction (op : Opcode)
  /-- Fewer than the two bytes of an instruction (R70). -/
  | truncated (have_ : Nat)
  deriving DecidableEq, Repr

/-- Family 8: the low nibble selects the operation (R74). -/
def decodeAlu (op : Opcode) (x y : RegIdx) (n : Nibble) : Except DecodeReject Instr :=
  if n = 0x0#4 then .ok (.ldReg x y)
  else if n = 0x1#4 then .ok (.orReg x y)
  else if n = 0x2#4 then .ok (.andReg x y)
  else if n = 0x3#4 then .ok (.xorReg x y)
  else if n = 0x4#4 then .ok (.addReg x y)
  else if n = 0x5#4 then .ok (.subReg x y)
  else if n = 0x6#4 then .ok (.shr x y)
  else if n = 0x7#4 then .ok (.subn x y)
  else if n = 0xE#4 then .ok (.shl x y)
  else .error (.noSuchInstruction op)

/-- Family F: the low byte selects the operation (R73). -/
def decodeMisc (op : Opcode) (x : RegIdx) (nn : Byte) : Except DecodeReject Instr :=
  if nn = 0x07#8 then .ok (.ldVxDT x)
  else if nn = 0x0A#8 then .ok (.ldVxK x)
  else if nn = 0x15#8 then .ok (.ldDTVx x)
  else if nn = 0x18#8 then .ok (.ldSTVx x)
  else if nn = 0x1E#8 then .ok (.addI x)
  else if nn = 0x29#8 then .ok (.ldF x)
  else if nn = 0x33#8 then .ok (.ldB x)
  else if nn = 0x55#8 then .ok (.stRegs x)
  else if nn = 0x65#8 then .ok (.ldRegs x)
  else .error (.noSuchInstruction op)

/-- The instruction an opcode selects (R73, R75): the family nibble first, then the sub-field, and for family 0 the whole
opcode. Every other opcode is refused (R76). -/
def decode (op : Opcode) : Except DecodeReject Instr :=
  let f := opFamily op
  let x := regOfNibble (opX op)
  let y := regOfNibble (opY op)
  let n := opN op
  let nn := opNN op
  let nnn := addrOfNNN (opNNN op)
  if f = 0x0#4 then
    if op = 0x00E0#16 then .ok .cls
    else if op = 0x00EE#16 then .ok .ret
    else .error (.noSuchInstruction op)
  else if f = 0x1#4 then .ok (.jp nnn)
  else if f = 0x2#4 then .ok (.call nnn)
  else if f = 0x3#4 then .ok (.seImm x nn)
  else if f = 0x4#4 then .ok (.sneImm x nn)
  else if f = 0x5#4 then
    if n = 0x0#4 then .ok (.seReg x y) else .error (.noSuchInstruction op)
  else if f = 0x6#4 then .ok (.ldImm x nn)
  else if f = 0x7#4 then .ok (.addImm x nn)
  else if f = 0x8#4 then decodeAlu op x y n
  else if f = 0x9#4 then
    if n = 0x0#4 then .ok (.sneReg x y) else .error (.noSuchInstruction op)
  else if f = 0xA#4 then .ok (.ldI nnn)
  else if f = 0xB#4 then .ok (.jpV0 nnn)
  else if f = 0xC#4 then .ok (.rnd x nn)
  else if f = 0xD#4 then .ok (.drw x y n.toNat)
  else if f = 0xE#4 then
    if nn = 0x9E#8 then .ok (.skp x)
    else if nn = 0xA1#8 then .ok (.sknp x)
    else .error (.noSuchInstruction op)
  else decodeMisc op x nn

/-- The 16-bit opcode of two bytes, most significant first (R53). -/
def opcodeOfBytes (hi lo : Byte) : Opcode := hi ++ lo

/-- The first instruction of a list of bytes, with the bytes after it (R70: every instruction is two bytes). -/
def decodeBytes : List Byte → Except DecodeReject (Instr × List Byte)
  | hi :: lo :: rest =>
    match decode (opcodeOfBytes hi lo) with
    | .ok i => .ok (i, rest)
    | .error r => .error r
  | short => .error (.truncated short.length)

/-! ## Encoding -/

/-- The format NNN: `ffff nnnn nnnn nnnn` (R71). -/
def wordNNN (f : Nibble) (nnn : Addr) : Opcode := f ++ nnn.setWidth 12
/-- The format XNN: `ffff xxxx nnnn nnnn`; with a fixed low byte it is the format X. -/
def wordXNN (f : Nibble) (x : RegIdx) (nn : Byte) : Opcode := f ++ nibbleOfReg x ++ nn
/-- The format XYN: `ffff xxxx yyyy nnnn`; with a fixed low nibble it is the format XY0. -/
def wordXYN (f : Nibble) (x y : RegIdx) (n : Nibble) : Opcode := f ++ nibbleOfReg x ++ nibbleOfReg y ++ n

/-- The word of an instruction (R73). For a well-formed instruction this is its encoding; an operand the encoding does not
admit loses its high bits. -/
def encode : Instr → Opcode
  | .cls => 0x00E0#16
  | .ret => 0x00EE#16
  | .jp nnn => wordNNN 0x1#4 nnn
  | .call nnn => wordNNN 0x2#4 nnn
  | .seImm x nn => wordXNN 0x3#4 x nn
  | .sneImm x nn => wordXNN 0x4#4 x nn
  | .seReg x y => wordXYN 0x5#4 x y 0x0#4
  | .ldImm x nn => wordXNN 0x6#4 x nn
  | .addImm x nn => wordXNN 0x7#4 x nn
  | .ldReg x y => wordXYN 0x8#4 x y 0x0#4
  | .orReg x y => wordXYN 0x8#4 x y 0x1#4
  | .andReg x y => wordXYN 0x8#4 x y 0x2#4
  | .xorReg x y => wordXYN 0x8#4 x y 0x3#4
  | .addReg x y => wordXYN 0x8#4 x y 0x4#4
  | .subReg x y => wordXYN 0x8#4 x y 0x5#4
  | .shr x y => wordXYN 0x8#4 x y 0x6#4
  | .subn x y => wordXYN 0x8#4 x y 0x7#4
  | .shl x y => wordXYN 0x8#4 x y 0xE#4
  | .sneReg x y => wordXYN 0x9#4 x y 0x0#4
  | .ldI nnn => wordNNN 0xA#4 nnn
  | .jpV0 nnn => wordNNN 0xB#4 nnn
  | .rnd x nn => wordXNN 0xC#4 x nn
  | .drw x y n => wordXYN 0xD#4 x y (BitVec.ofNat 4 n)
  | .skp x => wordXNN 0xE#4 x 0x9E#8
  | .sknp x => wordXNN 0xE#4 x 0xA1#8
  | .ldVxDT x => wordXNN 0xF#4 x 0x07#8
  | .ldVxK x => wordXNN 0xF#4 x 0x0A#8
  | .ldDTVx x => wordXNN 0xF#4 x 0x15#8
  | .ldSTVx x => wordXNN 0xF#4 x 0x18#8
  | .addI x => wordXNN 0xF#4 x 0x1E#8
  | .ldF x => wordXNN 0xF#4 x 0x29#8
  | .ldB x => wordXNN 0xF#4 x 0x33#8
  | .stRegs x => wordXNN 0xF#4 x 0x55#8
  | .ldRegs x => wordXNN 0xF#4 x 0x65#8

/-- The two bytes of an instruction as memory holds them: the most significant first (R53). -/
def encodeBytes (i : Instr) : List Byte := [(encode i).extractLsb' 8 8, (encode i).extractLsb' 0 8]

/-! ## The catalogue as mask and match (R73) -/

/-- A row of the catalogue: the opcode `op` selects it when `op &&& mask = value`. -/
structure OpcodeRow where
  mnemonic : String
  value : Opcode
  mask : Opcode
  deriving DecidableEq, Repr

/-- The catalogue of R73, row for row, written apart from the decoder so that the two can be compared. -/
def opcodeTable : List OpcodeRow :=
  [⟨"CLS", 0x00E0#16, 0xFFFF#16⟩, ⟨"RET", 0x00EE#16, 0xFFFF#16⟩, ⟨"JP_nnn", 0x1000#16, 0xF000#16⟩,
   ⟨"CALL_nnn", 0x2000#16, 0xF000#16⟩, ⟨"SE_Vx__nn", 0x3000#16, 0xF000#16⟩, ⟨"SNE_Vx__nn", 0x4000#16, 0xF000#16⟩,
   ⟨"SE_Vx__Vy", 0x5000#16, 0xF00F#16⟩, ⟨"LD_Vx__nn", 0x6000#16, 0xF000#16⟩, ⟨"ADD_Vx__nn", 0x7000#16, 0xF000#16⟩] ++
  [⟨"LD_Vx__Vy", 0x8000#16, 0xF00F#16⟩, ⟨"OR_Vx__Vy", 0x8001#16, 0xF00F#16⟩, ⟨"AND_Vx__Vy", 0x8002#16, 0xF00F#16⟩,
   ⟨"XOR_Vx__Vy", 0x8003#16, 0xF00F#16⟩, ⟨"ADD_Vx__Vy", 0x8004#16, 0xF00F#16⟩, ⟨"SUB_Vx__Vy", 0x8005#16, 0xF00F#16⟩,
   ⟨"SHR_Vx____Vy", 0x8006#16, 0xF00F#16⟩, ⟨"SUBN_Vx__Vy", 0x8007#16, 0xF00F#16⟩, ⟨"SHL_Vx____Vy", 0x800E#16, 0xF00F#16⟩] ++
  [⟨"SNE_Vx__Vy", 0x9000#16, 0xF00F#16⟩, ⟨"LD_I__nnn", 0xA000#16, 0xF000#16⟩, ⟨"JP_V0__nnn", 0xB000#16, 0xF000#16⟩,
   ⟨"RND_Vx__nn", 0xC000#16, 0xF000#16⟩, ⟨"DRW_Vx__Vy__n", 0xD000#16, 0xF000#16⟩, ⟨"SKP_Vx", 0xE09E#16, 0xF0FF#16⟩,
   ⟨"SKNP_Vx", 0xE0A1#16, 0xF0FF#16⟩] ++
  [⟨"LD_Vx__DT", 0xF007#16, 0xF0FF#16⟩, ⟨"LD_Vx__K", 0xF00A#16, 0xF0FF#16⟩, ⟨"LD_DT__Vx", 0xF015#16, 0xF0FF#16⟩,
   ⟨"LD_ST__Vx", 0xF018#16, 0xF0FF#16⟩, ⟨"ADD_I__Vx", 0xF01E#16, 0xF0FF#16⟩, ⟨"LD_F__Vx", 0xF029#16, 0xF0FF#16⟩,
   ⟨"LD_B__Vx", 0xF033#16, 0xF0FF#16⟩, ⟨"LD__I___Vx", 0xF055#16, 0xF0FF#16⟩, ⟨"LD_Vx___I", 0xF065#16, 0xF0FF#16⟩]

/-- The opcode selects the row. -/
def OpcodeRow.selects (r : OpcodeRow) (op : Opcode) : Bool := op &&& r.mask == r.value

/-! ## The host's reading of the table -/

/-- The instruction the decoder reads from an instruction whose bits are `w`, numbered as spec/opcode_table.json numbers
them; the bits above `nbits` are 0. The word is laid out as memory holds it, the most significant byte first (R53). -/
def decodeTableWord (nbits w : Nat) : Option Instr :=
  let op : Opcode := BitVec.ofNat 16 (w % 2 ^ nbits)
  match decodeBytes [op.extractLsb' 8 8, op.extractLsb' 0 8] with
  | .ok (i, _) => some i
  | .error _ => none

end Sys2Proof
end

