-- ==== Sys2Proof/Config.lean ====
section
/-! DEFINITION. What is fixed for the machine (00_scope.md R6, R8) and the free values: what the environment answers
where the state holds no pending answer for it (60_exceptions.md R205). A free value is an `opaque` constant without a
body, so that no proof can see what it is. -/

namespace Sys2Proof

/-! ## Fixed sizes (R6) -/

/-- `MEM_SIZE`. -/
abbrev Config.memSize : Nat := 4096
/-- `NUM_V`, and `NUM_KEYS`. -/
abbrev Config.numV : Nat := 16
/-- `STACK_DEPTH`. -/
abbrev Config.stackDepth : Nat := 16
/-- `FB_W`. -/
abbrev Config.fbWidth : Nat := 64
/-- `FB_H`. -/
abbrev Config.fbHeight : Nat := 32
/-- `FONT_BASE`. -/
abbrev Config.fontBase : Nat := 0x050
/-- `PROG_BASE`. -/
abbrev Config.progBase : Nat := 0x200
/-- `MAX_ROM`. -/
abbrev Config.maxRom : Nat := 3584

/-! ## Time (R203, R204) -/

/-- 16.6 ms, the least admissible `TICK_INTERVAL`, in the model's unit of time, the nanosecond
(DESIGN CHOICE, safe: a finer or coarser unit admits other clocks; log 3). -/
abbrev Config.minTickInterval : Nat := 16600000

/-- The default of the parameter `TICK_INTERVAL` (R203): 16.6 ms. The state carries the parameter's value. -/
abbrev Config.defaultTickInterval : Nat := 16600000

/-! ## What the environment may answer (R205 to R207) -/

/-- A collaborator's own error, known only by a number (DESIGN CHOICE, safe: the spec says "the collaborator's error" and
nothing of its form; log 14). -/
abbrev CollabError := Nat

/-- The answer of `enter_exclusive_mode`, `render` or `leave_exclusive_mode` (R205, R206). -/
inductive DisplayAnswer where
  | ok
  | error (e : CollabError)
  deriving DecidableEq, Repr, Inhabited

/-- The answer of the non-blocking `poll()` (R98, R207). -/
inductive PollAnswer where
  | noEvent
  | key (k : KeyCode)
  | quit
  | error (e : CollabError)
  deriving DecidableEq, Repr, Inhabited

/-- What the blocking `wait()` does next (R96, R207): it has not answered yet, or it answers. -/
inductive WaitAnswer where
  | notYet
  | key (k : KeyCode)
  | quit
  | error (e : CollabError)
  deriving DecidableEq, Repr, Inhabited

/-! ## Free values (DESIGN CHOICE, safe; log 2)

Each is asked with the number of answers drawn from that source so far. -/

/-- How much later than the previous sample a clock sample is (R204: the clock never runs backward). -/
opaque Config.freeClockStep : Nat → Nat
/-- The byte of a `Cxnn` (R184: any value 0x00 to 0xFF). -/
opaque Config.freeRandomByte : Nat → Byte
/-- The answer of a call to the display (R198: any call may fail). -/
opaque Config.freeDisplayAnswer : Nat → DisplayAnswer
/-- The answer of a `poll()` (R98). -/
opaque Config.freePollAnswer : Nat → PollAnswer
/-- What a `wait()` does (R96). -/
opaque Config.freeWaitAnswer : Nat → WaitAnswer

end Sys2Proof
end

