-- ==== Sys2Proof/Machine/State.lean ====
section
/-! DEFINITION. The state of the machine (10_state.md R20 to R43) as plain data, the reasons a run ends, the reasons the
step function stops, and the state after reset. -/

namespace Sys2Proof.Machine

/-! ## Memory and framebuffer -/

/-- Memory: address and byte pairs, addresses strictly rising, no entry equal to what an unlisted address reads as
(`Memory.wf`, Machine/Memory.lean). -/
abbrev Memory := List Host.Cell

/-- The framebuffer (R31): 32 rows of 64 pixels, row `py` at index `py`, the pixel of column `px` at bit `px` of its row
(log 11). -/
abbrev Framebuffer := Vector (BitVec 64) 32

/-! ## How a run ends (60_exceptions.md R190) -/

/-- The operation of a stack fault (R190). -/
inductive StackOp where
  | call
  | ret
  deriving DecidableEq, Repr

/-- A collaborator call that can fail (R198). -/
inductive CollabCall where
  | enterExclusive
  | render
  | poll
  | wait
  | leaveExclusive
  deriving DecidableEq, Repr

/-- A fatal fault with its record, in the order of the codes 1 to 8 (R190). -/
inductive FaultRecord where
  | decodeError (pc : Addr) (opcode : Opcode)
  | stackOverflow (pc : Addr) (opcode : Opcode) (operation : StackOp) (depth : Nat)
  | stackUnderflow (pc : Addr) (opcode : Opcode) (operation : StackOp) (depth : Nat)
  | pcOutOfBounds (pc : Addr)
  | memoryOutOfBounds (pc : Addr) (opcode : Opcode) (addr : Nat)
  | keyIndexOutOfRange (pc : Addr) (opcode : Opcode) (value : Byte)
  | collaboratorError (call : CollabCall) (error : CollabError)
  | loadError (length : Nat)
  deriving DecidableEq, Repr

/-- The outcome of a run: graceful, or a fatal fault (R35, R194). -/
inductive RunOutcome where
  | quit
  | fault (r : FaultRecord)
  deriving DecidableEq, Repr

/-- The run mode (R35). -/
inductive Mode where
  | running
  | waitingForKey (x : RegIdx)
  | stopped (o : RunOutcome)
  deriving DecidableEq, Repr

/-! ## What an instruction returns (40_execution_cycle.md R94) -/

/-- The dispatch outcome (R94). -/
inductive Dispatched where
  | next
  | skip
  | jump (t : Addr)
  | wait (x : RegIdx)
  deriving DecidableEq, Repr

/-! ## The environment (60_exceptions.md R205) -/

/-- A call the core makes to its environment, with what it sends (R205). -/
inductive Call where
  | enterExclusive
  | render (fb : Framebuffer)
  | poll
  | wait
  | clockSample
  | randomByte
  | leaveExclusive
  deriving DecidableEq, Repr

/-- The answers of one source: those already known, next first, and how many were drawn so far. When none is known the
answer is a free value of Config (log 2). -/
structure Supply (α : Type) where
  pending : List α
  drawn : Nat
  deriving DecidableEq, Repr

/-- The parameters and inputs of the step, which R39 keeps apart from the core's state and which this interface can only
pass inside it (log 2, log 3, log 4). -/
structure Env where
  /-- `TICK_INTERVAL` (R203), in nanoseconds. No step writes it. -/
  tickInterval : Nat
  /-- The last clock sample taken (R204). -/
  lastSample : Nat
  /-- How much later each next clock sample is than the one before it (R204). -/
  clock : Supply Nat
  /-- The random bytes of `Cxnn` (R184). -/
  random : Supply Byte
  /-- The answers of the display's calls (R206). -/
  display : Supply DisplayAnswer
  /-- The answers of `poll()` (R207). -/
  polls : Supply PollAnswer
  /-- What `wait()` does (R207). -/
  waits : Supply WaitAnswer
  deriving DecidableEq, Repr

/-! ## The state (R39) -/

structure State where
  /-- R38. -/
  mem : Memory
  /-- The general registers (R20); `V[15]` is `VF`, the flag (R21). -/
  V : Vector Byte 16
  /-- The index register (R24). -/
  I : Addr
  /-- The program counter (R25). -/
  pc : Addr
  /-- The call stack's slots (R27). -/
  stack : Vector Addr 16
  /-- The number of occupied slots (R27, R28). -/
  sp : Nat
  /-- The delay timer (R29). -/
  DT : Byte
  /-- The sound timer (R29). -/
  ST : Byte
  /-- The clock value at which the timers last ticked (R30). -/
  lastTick : Nat
  /-- R31. -/
  fb : Framebuffer
  /-- R32. -/
  dirty : Bool
  /-- The input latch, true for a pressed key (R33). -/
  keys : Vector Bool 16
  /-- R34. -/
  halt : Bool
  /-- R35. -/
  mode : Mode
  /-- R36. -/
  exclusive : Bool
  /-- The model's own: parameters and inputs (log 2). -/
  env : Env
  /-- The model's own: the calls made so far, newest first (log 8). No rule reads it. -/
  log : List Call
  deriving DecidableEq, Repr

/-! ## Reasons the step function stops -/

inductive Fault where
  /-- Raised by `step` on a core whose run has already ended: "`Stopped` is final: no sub-step runs in it" (R35).
  Safe: the spec gives such a state no step. -/
  | runEnded (o : RunOutcome)
  deriving DecidableEq, Repr

inductive Refusal where
  /-- Raised by `exec` for an instruction without a meaning. Safe: nothing follows from it. No arm raises it. -/
  | notModelled (mnemonic : String)
  deriving DecidableEq, Repr

/-! ## Reset (70_reset_and_hazards.md R220, 10_state.md R41) -/

/-- Nothing known of the answers to come. -/
def Supply.unknown {α : Type} : Supply α := ⟨[], 0⟩

/-- The environment at reset: the default `TICK_INTERVAL` (R203), and the reset's clock sample as the origin of time
(DESIGN CHOICE, safe: only differences of samples are ever used; log 3). -/
def Env.reset : Env where
  tickInterval := Config.defaultTickInterval
  lastSample := 0
  clock := Supply.unknown
  random := Supply.unknown
  display := Supply.unknown
  polls := Supply.unknown
  waits := Supply.unknown

/-- The machine right after reset (R220, R41), with the default parameters. Nothing is listed in memory: an unlisted
address reads as its reset contents. `State.resetWith` (Machine/Boot.lean) takes the parameters as arguments. -/
def State.reset : State where
  mem := []
  V := Vector.replicate 16 0
  I := 0
  pc := 0x200
  stack := Vector.replicate 16 0
  sp := 0
  DT := 0
  ST := 0
  lastTick := 0
  fb := Vector.replicate 32 0
  dirty := false
  keys := Vector.replicate 16 false
  halt := false
  mode := .running
  exclusive := false
  env := Env.reset
  log := [.clockSample]

end Sys2Proof.Machine
end

