-- ==== Sys2Proof/Machine/Memory.lean ====
section
/-! DEFINITION. The 4096 bytes of memory (10_state.md R38, R43; 20_memory.md R50 to R52): what an unlisted address reads
as, reading and writing one byte, and writing bytes at consecutive addresses. -/

namespace Sys2Proof.Machine

/-- The default of the parameter `FONT_BYTES` (R43): the conventional font, glyphs 0 to F of five bytes each
(PRESUMED, unsafe: the spec takes the bytes from general knowledge; log 5). -/
def defaultFont : List Byte :=
  [0xF0, 0x90, 0x90, 0x90, 0xF0,  0x20, 0x60, 0x20, 0x20, 0x70,
   0xF0, 0x10, 0xF0, 0x80, 0xF0,  0xF0, 0x10, 0xF0, 0x10, 0xF0] ++
  [0x90, 0x90, 0xF0, 0x10, 0x10,  0xF0, 0x80, 0xF0, 0x10, 0xF0,
   0xF0, 0x80, 0xF0, 0x90, 0xF0,  0xF0, 0x10, 0x20, 0x40, 0x40] ++
  [0xF0, 0x90, 0xF0, 0x90, 0xF0,  0xF0, 0x90, 0xF0, 0x10, 0xF0,
   0xF0, 0x90, 0xF0, 0x90, 0x90,  0xE0, 0x90, 0xE0, 0x90, 0xE0] ++
  [0xF0, 0x80, 0x80, 0x80, 0xF0,  0xE0, 0x90, 0x90, 0x90, 0xE0,
   0xF0, 0x80, 0xF0, 0x80, 0xF0,  0xF0, 0x80, 0xF0, 0x80, 0x80]

/-- What an unlisted address reads as: its reset contents, zero "except preloaded fonts" (R38, R220). -/
def unlistedByte (a : Nat) : Byte :=
  if Config.fontBase ≤ a then defaultFont.getD (a - Config.fontBase) 0 else 0

/-- `MemRead(a, 1)` (R10, R52). An address above 0xFFF is read by no rule (R53, R54 raise first). -/
def Memory.read : Memory → Nat → Byte
  | [], a => unlistedByte a
  | (k, v) :: m, a => if a = k then v else Memory.read m a

/-- List the byte `v` at `a`, keeping the addresses rising. -/
def Memory.insert : Memory → Nat → Byte → Memory
  | [], a, v => [(a, v)]
  | (k, w) :: m, a, v =>
    if a < k then (a, v) :: (k, w) :: m
    else if a = k then (a, v) :: m
    else (k, w) :: Memory.insert m a v

/-- Unlist the address `a`. -/
def Memory.erase : Memory → Nat → Memory
  | [], _ => []
  | (k, w) :: m, a => if a = k then m else (k, w) :: Memory.erase m a

/-- `MemWrite(a, 1, v)` (R10, R52), keeping the canonical form. There is no byte above 0xFFF to write (R50), and no rule
writes there (R54 raises first). -/
def Memory.write (m : Memory) (a : Nat) (v : Byte) : Memory :=
  if a < Config.memSize then
    if v = unlistedByte a then Memory.erase m a else Memory.insert m a v
  else m

/-- Write bytes at consecutive addresses, the first at `a` (R52, R153, R154, R55). -/
def Memory.writeBytes : Memory → Nat → List Byte → Memory
  | m, _, [] => m
  | m, a, b :: bs => Memory.writeBytes (Memory.write m a b) (a + 1) bs

/-- The entries lie at or above `lo`, rise strictly, lie below 4096, and none repeats what its address reads as
unlisted. -/
def Memory.wfFrom : Nat → Memory → Bool
  | _, [] => true
  | lo, (k, v) :: m =>
    decide (lo ≤ k) && decide (k < Config.memSize) && decide (v ≠ unlistedByte k) && Memory.wfFrom (k + 1) m

/-- The canonical form of a memory: equal contents are equal lists. -/
def Memory.wf (m : Memory) : Bool := Memory.wfFrom 0 m

end Sys2Proof.Machine
end

