-- ==== Sys2Proof/Machine/Ops.lean ====
section
/-! DEFINITION. The named operations over the state: registers, the stack's slots, the latch, pixels, the answers of the
environment; ending a run and raising a fault, the one way an exception is taken; and the fetch. -/

namespace Sys2Proof.Machine

/-! ## Registers (R20, R21) -/

/-- `V[x]`. -/
def State.reg (s : State) (x : RegIdx) : Byte := s.V[x.val]

/-- `V[x] <- v`. -/
def State.setReg (s : State) (x : RegIdx) (v : Byte) : State := { s with V := s.V.set x.val v }

/-! ## Memory (R50) -/

/-- The byte at address `a`. -/
def State.byte (s : State) (a : Nat) : Byte := s.mem.read a

/-! ## The stack's slots (R27) -/

/-- `stack[k]`. There is no slot 16 or above: reading one gives 0 (DESIGN CHOICE, unsafe in states no run reaches, where
`sp` exceeds 16; log 12). -/
def State.slot (s : State) (k : Nat) : Addr := if h : k < 16 then s.stack[k] else 0

/-- `stack[k] <- v`; there is no slot 16 or above to write. -/
def State.setSlot (s : State) (k : Nat) (v : Addr) : State := { s with stack := s.stack.setIfInBounds k v }

/-! ## The input latch (R33, R98) -/

/-- `keys[k] = pressed`. -/
def State.pressed (s : State) (k : KeyCode) : Bool := s.keys[k.val]

/-- The latch with no key pressed. -/
def latchNone : Vector Bool 16 := Vector.replicate 16 false

/-- The latch with the key `j` pressed and no other (R98, D14). -/
def latchKey (j : KeyCode) : Vector Bool 16 := latchNone.set j.val true

/-! ## Pixels (R31) -/

/-- `fb(px, py)`; there is no pixel outside the 64 by 32 grid. -/
def Framebuffer.pixel (fb : Framebuffer) (px py : Nat) : Bool :=
  if h : py < 32 then fb[py].getLsbD px else false

/-- `fb(px, py) <- fb(px, py) ^ 1`. -/
def Framebuffer.flip (fb : Framebuffer) (px py : Nat) : Framebuffer :=
  if h : py < 32 then fb.set py (fb[py] ^^^ (1#64 <<< px)) else fb

/-- The framebuffer with every pixel 0. -/
def Framebuffer.clear : Framebuffer := Vector.replicate 32 0

/-! ## The answers of the environment (R205; log 2) -/

/-- The next answer of a source: the first known one, or else the free value. -/
def Supply.next {α : Type} (q : Supply α) (free : Nat → α) : α :=
  match q.pending with
  | a :: _ => a
  | [] => free q.drawn

/-- The source after one answer was drawn. -/
def Supply.rest {α : Type} (q : Supply α) : Supply α := ⟨q.pending.tail, q.drawn + 1⟩

/-- The answer of the next call to the display. -/
def State.displayAnswer (s : State) : DisplayAnswer := s.env.display.next Config.freeDisplayAnswer
/-- The answer of the next `poll()`. -/
def State.pollAnswer (s : State) : PollAnswer := s.env.polls.next Config.freePollAnswer
/-- What the next `wait()` does. -/
def State.waitAnswer (s : State) : WaitAnswer := s.env.waits.next Config.freeWaitAnswer
/-- The next `RandomByte()` (R184). -/
def State.randomByte (s : State) : Byte := s.env.random.next Config.freeRandomByte
/-- The next `ClockSample()`: never below the one before it (R204). -/
def State.clockSample (s : State) : Nat := s.env.lastSample + s.env.clock.next Config.freeClockStep

/-- The state once a call of the display was made. -/
def State.calledDisplay (s : State) (c : Call) : State :=
  { s with env := { s.env with display := s.env.display.rest }, log := c :: s.log }
/-- The state once `poll()` was called. -/
def State.calledPoll (s : State) : State :=
  { s with env := { s.env with polls := s.env.polls.rest }, log := .poll :: s.log }
/-- The state once `wait()` has answered. -/
def State.calledWait (s : State) : State :=
  { s with env := { s.env with waits := s.env.waits.rest }, log := .wait :: s.log }
/-- The state while `wait()` has not answered: the suspension goes on and no state of the core changes (R96). -/
def State.keptWaiting (s : State) : State :=
  { s with env := { s.env with waits := s.env.waits.rest } }
/-- The state once the random byte was taken. -/
def State.calledRandom (s : State) : State :=
  { s with env := { s.env with random := s.env.random.rest }, log := .randomByte :: s.log }
/-- The state once the clock was sampled. -/
def State.calledClock (s : State) : State :=
  { s with
    env := { s.env with clock := s.env.clock.rest, lastSample := s.clockSample }, log := .clockSample :: s.log }

/-! ## The end of a run, and faults (R190 to R194) -/

/-- The outcome returned after `leave_exclusive_mode()` answered `a`: a failure becomes the outcome "only when the run was
ending gracefully" (R193). -/
def outcomeAfterLeave : RunOutcome → DisplayAnswer → RunOutcome
  | .quit, .error e => .fault (.collaboratorError .leaveExclusive e)
  | o, _ => o

/-- End the run with an outcome and run the exit sequence (R193): if the display is in exclusive mode, leave it, once. -/
def endRun (o : RunOutcome) (s : State) : State :=
  if s.exclusive then
    { s.calledDisplay .leaveExclusive with exclusive := false, mode := .stopped (outcomeAfterLeave o s.displayAnswer) }
  else { s with mode := .stopped o }

/-- `raise`: TAKING AN EXCEPTION. A fatal fault ends the run with its record and the exit sequence (R101, R191, R193).
There is no handler, no saved state and no vector, so the pc and every register stay as they are, and there is no return
from a fault (R192). -/
def raise (r : FaultRecord) (s : State) : State := endRun (.fault r) s

/-- The numeric code of a fault (R190, D28). -/
def FaultRecord.code : FaultRecord → Nat
  | .decodeError _ _ => 1
  | .stackOverflow _ _ _ _ => 2
  | .stackUnderflow _ _ _ _ => 3
  | .pcOutOfBounds _ => 4
  | .memoryOutOfBounds _ _ _ => 5
  | .keyIndexOutOfRange _ _ _ => 6
  | .collaboratorError _ _ => 7
  | .loadError _ => 8

/-! ## Sequencing within a cycle -/

/-- Go on with `f` unless the run has ended or the core is suspended (R95, R101). -/
def State.whileRunning (s : State) (f : State → State) : State :=
  match s.mode with
  | .running => f s
  | .waitingForKey _ => s
  | .stopped _ => s

/-! ## Advance (R95) -/

/-- The advance sub-step: what the dispatch outcome does to `pc` and `mode`. The additions are on 16 bits: they are exact for
every `pc` that can be fetched from (R26; log 13). -/
def advance : Dispatched → State → State
  | .next, s => { s with pc := s.pc + 2 }
  | .skip, s => { s with pc := s.pc + 4 }
  | .jump t, s => { s with pc := t }
  | .wait x, s => { s with mode := .waitingForKey x }

/-! ## The stack primitives (R130, R131) -/

/-- `Push(v)` past its check. -/
def State.push (s : State) (v : Addr) : State := { s.setSlot s.sp v with sp := s.sp + 1 }

/-- The value `Pop()` returns, past its check. -/
def State.top (s : State) : Addr := s.slot (s.sp - 1)

/-- The state after `Pop()`, past its check: the slot keeps its value (R131). -/
def State.pop (s : State) : State := { s with sp := s.sp - 1 }

/-! ## Fetch and decode (R53, R92, R93) -/

/-- The opcode at the program counter, most significant byte first (R53). -/
def State.opcodeAtPc (s : State) : Opcode := opcodeOfBytes (s.byte s.pc.toNat) (s.byte (s.pc.toNat + 1))

/-- Fetch and decode: the instruction at the program counter, or the fault that R92 or R93 raises. -/
def fetchInstr (s : State) : Except FaultRecord Instr :=
  if 0xFFE < s.pc.toNat then .error (.pcOutOfBounds s.pc)
  else
    match decode s.opcodeAtPc with
    | .ok i => .ok i
    | .error _ => .error (.decodeError s.pc s.opcodeAtPc)

end Sys2Proof.Machine
end

