-- ==== Sys2Proof/Machine/Cycle.lean ====
section
/-! DEFINITION. The sub-steps of the cycle around execute (40_execution_cycle.md R96 to R99; 60_exceptions.md R198, R200),
and the placing of an instruction's bytes where the next step fetches them. -/

namespace Sys2Proof.Machine

/-- Render (R97): hand the framebuffer over when dirty, then clear the flag. A failing call ends the run with `dirty` still
set (R198). -/
def render (s : State) : State :=
  if s.dirty then
    match s.displayAnswer with
    | .ok => { s.calledDisplay (.render s.fb) with dirty := false }
    | .error e => raise (.collaboratorError .render e) (s.calledDisplay (.render s.fb))
  else s

/-- Poll (R98): rebuild the latch from the one answer. -/
def poll (s : State) : State :=
  match s.pollAnswer with
  | .noEvent => { s.calledPoll with keys := latchNone }
  | .key j => { s.calledPoll with keys := latchKey j }
  | .quit => { s.calledPoll with keys := latchNone, halt := true }
  | .error e => raise (.collaboratorError .poll e) s.calledPoll

/-- One count down, stopping at 0 (R200). -/
def countDown (v : Byte) : Byte := if v = 0 then 0 else v - 1

/-- Whether the sample `t` ticks the timers: `t - last_tick >= TICK_INTERVAL` (R200, D16), as exact arithmetic. -/
def State.ticksAt (s : State) (t : Nat) : Bool := decide (s.lastTick + s.env.tickInterval ≤ t)

/-- The timer step (R99, R200): one clock sample, at most one tick of both timers. -/
def timerStep (s : State) : State :=
  if s.ticksAt s.clockSample then
    { s.calledClock with DT := countDown s.DT, ST := countDown s.ST, lastTick := s.clockSample }
  else s.calledClock

/-- Sub-steps 6 to 8 (R90), each run only while the run goes on (R101). -/
def finishCycle (s : State) : State := ((render s).whileRunning poll).whileRunning timerStep

/-- Resume after `wait()` answered: the advance by 2, back to `Running`, then sub-steps 6 to 8 (R96, D15). -/
def resume (s : State) : State := finishCycle { s with pc := s.pc + 2, mode := .running }

/-- The wait step (R96). The register is written with the key's code; the latch is not. -/
def waitStep (x : RegIdx) (s : State) : State :=
  match s.waitAnswer with
  | .notYet => s.keptWaiting
  | .key k => resume (s.calledWait.setReg x (BitVec.ofNat 8 k.val))
  | .quit => resume { s.calledWait with halt := true }
  | .error e => raise (.collaboratorError .wait e) s.calledWait

/-- The state that fetches next: running, no Quit pending, the pc where both bytes are in memory. At reset this changes
nothing. -/
def State.readyToFetch (s : State) : State :=
  { s with mode := .running, halt := false, pc := if 0xFFE < s.pc.toNat then 0x200 else s.pc }

/-- The instruction word `op` stored at the pc, most significant byte first (R53). -/
def State.placeAtPc (s : State) (op : Opcode) : State :=
  { s with mem := s.mem.writeBytes s.pc.toNat [op.extractLsb' 8 8, op.extractLsb' 0 8] }

end Sys2Proof.Machine
end

