-- ==== Sys2Proof/Machine/Flags.lean ====
section
/-! DEFINITION. The flag computations (10_state.md R23; 41_alu.md R110, R117 to R121; 45_display.md R171). The only flag is
`VF`, and every flag value written is exactly 0 or 1. -/

namespace Sys2Proof.Machine

/-- A flag as a byte, exactly 0 or 1 (R23). -/
def flagByte (c : Bool) : Byte := if c then 1 else 0

/-- The carry of an addition: the exact sum exceeds 255 (R117). -/
def carryOut (a b : Byte) : Bool := decide (255 < a.toNat + b.toNat)

/-- "No borrow" of `a - b`: `a >= b` (R118, R120: set when there is NO borrow). -/
def noBorrow (a b : Byte) : Bool := decide (b.toNat ≤ a.toNat)

/-- The bit a right shift shifts out (R119). -/
def lowBit (a : Byte) : Bool := a.getLsbD 0

/-- The bit a left shift shifts out (R121). -/
def highBit (a : Byte) : Bool := a.getLsbD 7

/-- Write the result to `V[x]` and then the flag to `VF` (R110, D9): with `x = 15` the flag stays. -/
def State.setResultAndFlag (s : State) (x : RegIdx) (result : Byte) (flag : Bool) : State :=
  (s.setReg x result).setReg vf (flagByte flag)

end Sys2Proof.Machine
end

