-- ==== Sys2Proof/Machine/Operands.lean ====
section
/-! DEFINITION. The operand forms (30_encoding.md R72; 44_index_memory.md R156): the addresses an instruction reaches
through `I` and their bounds check, the registers of a block, the glyph's address, the decimal digits, the jump target. A
register operand is `State.reg` (Ops.lean), an immediate is the constructor's own field. -/

namespace Sys2Proof.Machine

/-! ## Index-register indirect (R54, R156) -/

/-- The effective address of the `k`-th byte: `I + k`, exact. -/
def State.effAddr (s : State) (k : Nat) : Nat := s.I.toNat + k

/-- The lowest address above 0xFFF among `I` to `I + count - 1`, if any: `max(I, 0x1000)` (R54, C13). An instruction that
accesses no byte makes no check. -/
def State.badAddr (s : State) (count : Nat) : Option Nat :=
  if 0 < count ∧ 0xFFF < s.effAddr (count - 1) then some (max s.I.toNat 0x1000) else none

/-- Make the check for all `count` addresses of the instruction `i` before its first access (R54), then go on. -/
def guardAccess (i : Instr) (count : Nat) (s : State) (f : State → State) : State :=
  match s.badAddr count with
  | some a => raise (.memoryOutOfBounds s.pc (encode i) a) s
  | none => f s

/-! ## Register blocks (R154, R155) -/

/-- The values of `V[0]` to `V[x]`. -/
def State.regsUpTo (s : State) (x : RegIdx) : List Byte := s.V.toList.take (x.val + 1)

/-- The register file with `V[0]` to `V[count - 1]` loaded from `base` on. -/
def loadRegs (m : Memory) (base : Nat) (V : Vector Byte 16) : Nat → Vector Byte 16
  | 0 => V
  | k + 1 => (loadRegs m base V k).setIfInBounds k (m.read (base + k))

/-! ## Glyphs and digits (R152, R153) -/

/-- `font_glyph_address(v)`: `0x050 + 5 * (v & 0xF)` (R152, D10). -/
def glyphAddr (v : Byte) : Addr := 0x050 + 5 * (zext16 v &&& 0xF)

/-- The three decimal digits of a byte: hundreds, tens, ones (R153, D12). -/
def decimalDigits (v : Byte) : List Byte :=
  [BitVec.ofNat 8 (v.toNat / 100), BitVec.ofNat 8 (v.toNat / 10 % 10), BitVec.ofNat 8 (v.toNat % 10)]

/-! ## Jump targets (R135) -/

/-- `zext_16(nnn) + zext_16(V[0])`: always `V0`, and no reduction modulo 0x1000. -/
def State.indexedTarget (s : State) (nnn : Addr) : Addr := nnn + zext16 (s.reg 0)

/-! ## Skips (R140) -/

/-- `Skip` when the condition holds, `Next` when it does not. -/
def skipIf (c : Bool) : Dispatched := if c then .skip else .next

/-! ## Sprites (R171 to R173) -/

/-- Draw one set bit of the sprite at a pixel: XOR it into the framebuffer, and note a pixel that was set. -/
def drawDot (px py : Nat) (acc : Framebuffer × Bool) : Framebuffer × Bool :=
  (acc.1.flip px py, acc.2 || acc.1.pixel px py)

/-- Column `col` of a sprite row is bit `7 - col` of its byte (R173, D35). -/
def spriteBit (b : Byte) (col : Nat) : Bool := b.getLsbD (7 - col)

/-- One row of a sprite, columns 0 to 7, at the wrapped coordinates (R171, R172). -/
def drawRow (cx cy row : Nat) (b : Byte) (acc : Framebuffer × Bool) : Framebuffer × Bool :=
  (List.range 8).foldl
    (fun acc col =>
      if spriteBit b col then drawDot ((cx + col) % Config.fbWidth) ((cy + row) % Config.fbHeight) acc else acc)
    acc

/-- The framebuffer and the collision after drawing `n` rows read at `base` on, top-left corner at `(cx, cy)` (R171). -/
def drawSprite (m : Memory) (base cx cy n : Nat) (fb : Framebuffer) : Framebuffer × Bool :=
  (List.range n).foldl (fun acc row => drawRow cx cy row (m.read (base + row)) acc) (fb, false)

end Sys2Proof.Machine
end

