-- ==== Sys2Proof/Machine/Alu.lean ====
section
/-! DEFINITION. Register loads and arithmetic (41_alu.md). Each reads its operands as they stood before the instruction,
writes the result, then the flag (R110), and returns `Next`. None raises a fault. -/

namespace Sys2Proof.Machine

/-- `6xnn` (R111). -/
def execLdImm (x : RegIdx) (nn : Byte) (s : State) : Host.Outcome State Fault Refusal :=
  .next (advance .next (s.setReg x nn))

/-- `7xnn` (R112): modulo 256, no flag. -/
def execAddImm (x : RegIdx) (nn : Byte) (s : State) : Host.Outcome State Fault Refusal :=
  .next (advance .next (s.setReg x (s.reg x + nn)))

/-- `8xy0` (R113). -/
def execLdReg (x y : RegIdx) (s : State) : Host.Outcome State Fault Refusal :=
  .next (advance .next (s.setReg x (s.reg y)))

/-- `8xy1` (R114): no flag. -/
def execOr (x y : RegIdx) (s : State) : Host.Outcome State Fault Refusal :=
  .next (advance .next (s.setReg x (s.reg x ||| s.reg y)))

/-- `8xy2` (R115): no flag. -/
def execAnd (x y : RegIdx) (s : State) : Host.Outcome State Fault Refusal :=
  .next (advance .next (s.setReg x (s.reg x &&& s.reg y)))

/-- `8xy3` (R116): no flag. -/
def execXor (x y : RegIdx) (s : State) : Host.Outcome State Fault Refusal :=
  .next (advance .next (s.setReg x (s.reg x ^^^ s.reg y)))

/-- `8xy4` (R117): `VF` is the carry. -/
def execAdd (x y : RegIdx) (s : State) : Host.Outcome State Fault Refusal :=
  .next (advance .next (s.setResultAndFlag x (s.reg x + s.reg y) (carryOut (s.reg x) (s.reg y))))

/-- `8xy5` (R118): `VF` is 1 when `V[x] >= V[y]`. -/
def execSub (x y : RegIdx) (s : State) : Host.Outcome State Fault Refusal :=
  .next (advance .next (s.setResultAndFlag x (s.reg x - s.reg y) (noBorrow (s.reg x) (s.reg y))))

/-- `8xy6` (R119): shifts `V[x]`; the y field is encoded and ignored (D8). -/
def execShr (x _y : RegIdx) (s : State) : Host.Outcome State Fault Refusal :=
  .next (advance .next (s.setResultAndFlag x (s.reg x >>> 1) (lowBit (s.reg x))))

/-- `8xy7` (R120): `VF` is 1 when `V[y] >= V[x]`. -/
def execSubn (x y : RegIdx) (s : State) : Host.Outcome State Fault Refusal :=
  .next (advance .next (s.setResultAndFlag x (s.reg y - s.reg x) (noBorrow (s.reg y) (s.reg x))))

/-- `8xyE` (R121): shifts `V[x]`; the y field is encoded and ignored (D8). -/
def execShl (x _y : RegIdx) (s : State) : Host.Outcome State Fault Refusal :=
  .next (advance .next (s.setResultAndFlag x (s.reg x <<< 1) (highBit (s.reg x))))

end Sys2Proof.Machine
end

