-- ==== Sys2Proof/Machine/Control.lean ====
section
/-! DEFINITION. Control flow and the call stack (42_control_flow.md). Each returns `Jump(t)`: the pc becomes exactly `t`
(R95). -/

namespace Sys2Proof.Machine

/-- `1nnn` (R132). -/
def execJp (nnn : Addr) (s : State) : Host.Outcome State Fault Refusal :=
  .next (advance (.jump nnn) s)

/-- `2nnn` (R133, R130): the overflow check comes before any write. -/
def execCall (nnn : Addr) (s : State) : Host.Outcome State Fault Refusal :=
  if Config.stackDepth ≤ s.sp then
    .next (raise (.stackOverflow s.pc (encode (.call nnn)) .call s.sp) s)
  else .next (advance (.jump nnn) (s.push (s.pc + 2)))

/-- `00EE` (R134, R131). -/
def execRet (s : State) : Host.Outcome State Fault Refusal :=
  if s.sp = 0 then
    .next (raise (.stackUnderflow s.pc (encode .ret) .ret s.sp) s)
  else .next (advance (.jump s.top) s.pop)

/-- `Bnnn` (R135). -/
def execJpV0 (nnn : Addr) (s : State) : Host.Outcome State Fault Refusal :=
  .next (advance (.jump (s.indexedTarget nnn)) s)

end Sys2Proof.Machine
end

