-- ==== Sys2Proof/Machine/Display.lean ====
section
/-! DEFINITION. The display instructions (45_display.md): they write the framebuffer and `dirty`; the hand-over to the
display comes later in the cycle (R97). -/

namespace Sys2Proof.Machine

/-- `00E0` (R170, R174). -/
def execCls (s : State) : Host.Outcome State Fault Refusal :=
  .next (advance .next { s with fb := Framebuffer.clear, dirty := true })

/-- `Dxyn` (R171 to R174): the coordinates are read before `VF` is written (D22); `VF` is the collision. -/
def execDrw (x y : RegIdx) (n : Nat) (s : State) : Host.Outcome State Fault Refusal :=
  .next (guardAccess (.drw x y n) n s fun s =>
    let drawn := drawSprite s.mem (s.effAddr 0) (s.reg x).toNat (s.reg y).toNat n s.fb
    advance .next ({ s with fb := drawn.1, dirty := true }.setReg vf (flagByte drawn.2)))

end Sys2Proof.Machine
end

