-- ==== Sys2Proof/Machine/Index.lean ====
section
/-! DEFINITION. The index register and memory instructions (44_index_memory.md). Each returns `Next`; the bounds check is
made for all addresses before the first access (R54). None changes `I` by accessing through it (R156, D11). -/

namespace Sys2Proof.Machine

/-- `Annn` (R150). -/
def execLdI (nnn : Addr) (s : State) : Host.Outcome State Fault Refusal :=
  .next (advance .next { s with I := nnn })

/-- `Fx1E` (R151): modulo 2^16, no flag (D5). -/
def execAddI (x : RegIdx) (s : State) : Host.Outcome State Fault Refusal :=
  .next (advance .next { s with I := s.I + zext16 (s.reg x) })

/-- `Fx29` (R152). -/
def execLdF (x : RegIdx) (s : State) : Host.Outcome State Fault Refusal :=
  .next (advance .next { s with I := glyphAddr (s.reg x) })

/-- `Fx33` (R153). -/
def execLdB (x : RegIdx) (s : State) : Host.Outcome State Fault Refusal :=
  .next (guardAccess (.ldB x) 3 s fun s =>
    advance .next { s with mem := s.mem.writeBytes (s.effAddr 0) (decimalDigits (s.reg x)) })

/-- `Fx55` (R154). -/
def execStRegs (x : RegIdx) (s : State) : Host.Outcome State Fault Refusal :=
  .next (guardAccess (.stRegs x) (x.val + 1) s fun s =>
    advance .next { s with mem := s.mem.writeBytes (s.effAddr 0) (s.regsUpTo x) })

/-- `Fx65` (R155). -/
def execLdRegs (x : RegIdx) (s : State) : Host.Outcome State Fault Refusal :=
  .next (guardAccess (.ldRegs x) (x.val + 1) s fun s =>
    advance .next { s with V := loadRegs s.mem (s.effAddr 0) s.V (x.val + 1) })

end Sys2Proof.Machine
end

