-- ==== Sys2Proof/Machine/Misc.lean ====
section
/-! DEFINITION. Timers, key wait and random (46_timers_input_random.md). None raises a fault in execute. -/

namespace Sys2Proof.Machine

/-- `Fx07` (R180). -/
def execLdVxDT (x : RegIdx) (s : State) : Host.Outcome State Fault Refusal :=
  .next (advance .next (s.setReg x s.DT))

/-- `Fx15` (R181). -/
def execLdDTVx (x : RegIdx) (s : State) : Host.Outcome State Fault Refusal :=
  .next (advance .next { s with DT := s.reg x })

/-- `Fx18` (R182). -/
def execLdSTVx (x : RegIdx) (s : State) : Host.Outcome State Fault Refusal :=
  .next (advance .next { s with ST := s.reg x })

/-- `Fx0A` (R183): enter the key wait; the wait step (`waitStep`, Machine/Cycle.lean) completes the instruction. -/
def execLdVxK (x : RegIdx) (s : State) : Host.Outcome State Fault Refusal :=
  .next (advance (.wait x) s)

/-- `Cxnn` (R184): the random byte is the environment's. -/
def execRnd (x : RegIdx) (nn : Byte) (s : State) : Host.Outcome State Fault Refusal :=
  .next (advance .next (s.calledRandom.setReg x (s.randomByte &&& nn)))

end Sys2Proof.Machine
end

