-- ==== Sys2Proof/Machine/Skips.lean ====
section
/-! DEFINITION. Conditional skips (43_skips.md). No flag is written (R140). -/

namespace Sys2Proof.Machine

/-- `3xnn` (R141). -/
def execSeImm (x : RegIdx) (nn : Byte) (s : State) : Host.Outcome State Fault Refusal :=
  .next (advance (skipIf (decide (s.reg x = nn))) s)

/-- `4xnn` (R142). -/
def execSneImm (x : RegIdx) (nn : Byte) (s : State) : Host.Outcome State Fault Refusal :=
  .next (advance (skipIf (decide (s.reg x ≠ nn))) s)

/-- `5xy0` (R143). -/
def execSeReg (x y : RegIdx) (s : State) : Host.Outcome State Fault Refusal :=
  .next (advance (skipIf (decide (s.reg x = s.reg y))) s)

/-- `9xy0` (R144). -/
def execSneReg (x y : RegIdx) (s : State) : Host.Outcome State Fault Refusal :=
  .next (advance (skipIf (decide (s.reg x ≠ s.reg y))) s)

/-- The key test shared by `Ex9E` and `ExA1` (R147): a value above 0xF names no latch entry and raises
KeyIndexOutOfRange before any effect (D13); otherwise skip when the entry is `want`. -/
def keyTest (i : Instr) (x : RegIdx) (want : Bool) (s : State) : State :=
  if h : (s.reg x).toNat < 16 then advance (skipIf (s.pressed ⟨(s.reg x).toNat, h⟩ == want)) s
  else raise (.keyIndexOutOfRange s.pc (encode i) (s.reg x)) s

/-- `Ex9E` (R145). -/
def execSkp (x : RegIdx) (s : State) : Host.Outcome State Fault Refusal :=
  .next (keyTest (.skp x) x true s)

/-- `ExA1` (R146). -/
def execSknp (x : RegIdx) (s : State) : Host.Outcome State Fault Refusal :=
  .next (keyTest (.sknp x) x false s)

end Sys2Proof.Machine
end

