-- ==== Sys2Proof/Machine/Step.lean ====
section
/-! DEFINITION. One step of the machine: one run-loop cycle, or the wait step of a suspended core (40_execution_cycle.md
R90 to R102). -/

namespace Sys2Proof.Machine

/-- One transition (R11, R90). Running: halt check (R91), fetch (R92), decode (R93), execute and advance (R94, R95), then
render, poll and timer step unless the core is suspended or the run has ended (R95, R101). Suspended: the wait step (R96).
Stopped: there is no step (R35). -/
def step (s : State) : Host.Outcome State Fault Refusal :=
  match s.mode with
  | .stopped o => .fault (.runEnded o)
  | .waitingForKey x => .next (waitStep x s)
  | .running =>
    if s.halt then .next (endRun .quit s)
    else
      match fetchInstr s with
      | .error r => .next (raise r s)
      | .ok i =>
        match exec i s with
        | .next t => .next (t.whileRunning finishCycle)
        | .fault f => .fault f
        | .refused r => .refused r

/-- The instruction whose bits are `w`, numbered as spec/opcode_table.json numbers them, stored where the next step fetches
(the bits above `nbits` are 0), in a state that fetches. It stands for the program's load, which comes from outside the
machine (R55, R56; log 7). -/
def State.withFetchWord (s : State) (nbits w : Nat) : State :=
  s.readyToFetch.placeAtPc (BitVec.ofNat 16 (w % 2 ^ nbits))

end Sys2Proof.Machine
end

