-- ==== Sys2Proof/Machine/Boot.lean ====
section
/-! DEFINITION. Before the first cycle (70_reset_and_hazards.md R220 to R222; 20_memory.md R55, R56): the reset with its
parameters, the loader and the boot sequence. None of these is an instruction; they come from outside the machine. -/

namespace Sys2Proof.Machine

/-- Reset with the parameters `FONT_BYTES` and `TICK_INTERVAL` (R8, R220, R221). -/
def State.resetWith (font : List Byte) (tick : Nat) : State :=
  { State.reset with
    mem := State.reset.mem.writeBytes Config.fontBase font, env := { Env.reset with tickInterval := tick } }

/-- `load(bytes)` (R55): verbatim at 0x200, or LoadError without a byte written (R199). -/
def load (bytes : List Byte) (s : State) : State :=
  if bytes.length ≤ Config.maxRom then { s with mem := s.mem.writeBytes Config.progBase bytes }
  else raise (.loadError bytes.length) s

/-- `enter_exclusive_mode()` (R222): a failure ends the run, and there is nothing to leave. -/
def enterExclusive (s : State) : State :=
  match s.displayAnswer with
  | .ok => { s.calledDisplay .enterExclusive with exclusive := true }
  | .error e => raise (.collaboratorError .enterExclusive e) (s.calledDisplay .enterExclusive)

/-- The boot sequence after the reset (R222): load, and unless that failed, enter the exclusive mode. -/
def boot (bytes : List Byte) (s : State) : State := (load bytes s).whileRunning enterExclusive

end Sys2Proof.Machine
end

