-- ==== Sys2Proof/Safety.lean ====
section
/-! DEFINITION. The terms in which claims about the machine are made: the invariant of a run, what an instruction writes,
frames, and runs. -/

namespace Sys2Proof

/-! ## What an instruction may write (10_state.md R22, R23) -/

/-- The general registers an instruction writes as its result in execute (R22). `Fx0A` writes its register in the wait
step. -/
def Instr.dest (i : Instr) (r : RegIdx) : Bool :=
  match i with
  | .ldImm x _ | .addImm x _ | .ldReg x _ | .orReg x _ | .andReg x _ | .xorReg x _ | .addReg x _ | .subReg x _
  | .shr x _ | .subn x _ | .shl x _ | .rnd x _ | .ldVxDT x => decide (r = x)
  | .ldRegs x => decide (r ≤ x)
  | .cls | .ret | .jp _ | .call _ | .seImm _ _ | .sneImm _ _ | .seReg _ _ | .sneReg _ _ | .ldI _ | .jpV0 _ | .drw _ _ _
  | .skp _ | .sknp _ | .ldVxK _ | .ldDTVx _ | .ldSTVx _ | .addI _ | .ldF _ | .ldB _ | .stRegs _ => false

/-- The instructions that write `VF` as a flag: "exactly these" (R23). -/
def Instr.writesFlag (i : Instr) : Bool :=
  match i with
  | .addReg _ _ | .subReg _ _ | .subn _ _ | .shr _ _ | .shl _ _ | .drw _ _ _ => true
  | .ldImm _ _ | .addImm _ _ | .ldReg _ _ | .orReg _ _ | .andReg _ _ | .xorReg _ _ | .rnd _ _ | .ldVxDT _ | .ldRegs _
  | .cls | .ret | .jp _ | .call _ | .seImm _ _ | .sneImm _ _ | .seReg _ _ | .sneReg _ _ | .ldI _ | .jpV0 _
  | .skp _ | .sknp _ | .ldVxK _ | .ldDTVx _ | .ldSTVx _ | .addI _ | .ldF _ | .ldB _ | .stRegs _ => false

/-- `Fx33` and `Fx55`, the instructions that write memory (R52). -/
def Instr.storesMemory (i : Instr) : Prop := ∃ x, i = .ldB x ∨ i = .stRegs x

/-- `00E0` and `Dxyn`, the instructions that write the framebuffer (R31). -/
def Instr.writesFb (i : Instr) : Prop := i = .cls ∨ ∃ x y n, i = .drw x y n

/-- `2nnn` and `00EE`, the instructions that use the stack (R27). -/
def Instr.usesStack (i : Instr) : Prop := i = .ret ∨ ∃ nnn, i = .call nnn

/-- `Annn`, `Fx1E` and `Fx29`, the instructions that write the index register (R24). -/
def Instr.writesIndex (i : Instr) : Prop := (∃ nnn, i = .ldI nnn) ∨ ∃ x, i = .addI x ∨ i = .ldF x

/-- `Fx15` (R29). -/
def Instr.writesDT (i : Instr) : Prop := ∃ x, i = .ldDTVx x

/-- `Fx18` (R29). -/
def Instr.writesST (i : Instr) : Prop := ∃ x, i = .ldSTVx x

end Sys2Proof

namespace Sys2Proof.Machine

/-! ## The invariant -/

/-- What the core keeps in every state of a run (10_state.md R25 to R36, 40_execution_cycle.md R103, and the constraints
R203 and R204 on its parameters and inputs). -/
structure State.Inv (s : State) : Prop where
  /-- The memory has its canonical form (log 15). -/
  mem_wf : s.mem.wf = true
  /-- No rule computes a pc above 0x10FE (R25, R26). -/
  pc_le : s.pc.toNat ≤ 0x10FE
  /-- "pointer never exceeds capacity" (R28). -/
  sp_le : s.sp ≤ 16
  /-- A return address is at most 0x1000 (R26, R27). -/
  returns_le : ∀ k, k < s.sp → (s.slot k).toNat ≤ 0x1000
  /-- "at most one key is pressed in any snapshot" (R98). -/
  one_key : ∀ j k, s.pressed j = true → s.pressed k = true → j = k
  /-- The last tick happened at a sample already taken (R30, R204). -/
  tick_le : s.lastTick ≤ s.env.lastSample
  /-- `TICK_INTERVAL >= 16.6 ms` (R203). -/
  interval_ge : Config.minTickInterval ≤ s.env.tickInterval
  /-- A suspended core still points at its `Fx0A` (R95), which was fetched (R53). -/
  waiting_pc : ∀ x, s.mode = .waitingForKey x → s.pc.toNat ≤ 0xFFE
  /-- A cycle that goes on ends with the framebuffer handed over (R97, R174). -/
  clean : (∀ o, s.mode ≠ .stopped o) → s.dirty = false
  /-- A run that has ended has left the exclusive mode (R193). -/
  stopped_left : ∀ o, s.mode = .stopped o → s.exclusive = false

/-! ## Frames -/

/-- Every byte of memory reads as before. -/
def SameBytes (s t : State) : Prop := ∀ a, t.byte a = s.byte a

/-- Every byte outside the `count` addresses from `base` on reads as before. -/
def SameBytesOutside (s t : State) (base count : Nat) : Prop :=
  ∀ a, a < base ∨ base + count ≤ a → t.byte a = s.byte a

/-- `i` completes: it writes `v` to `V[x]` and nothing else, and falls through. -/
def WritesReg (i : Instr) (s : State) (x : RegIdx) (v : Byte) : Prop :=
  ∃ t, exec i s = .next t ∧ t.reg x = v ∧ (∀ r, r ≠ x → t.reg r = s.reg r) ∧ t.pc = s.pc + 2 ∧ SameBytes s t ∧
    { t with V := s.V, pc := s.pc } = s

/-- `i` completes: it writes `v` to `V[x]`, then the flag `f` as 0 or 1 to `VF` (which keeps the flag if it is `V[x]`), and
nothing else, and falls through. -/
def WritesRegAndFlag (i : Instr) (s : State) (x : RegIdx) (v : Byte) (f : Prop) : Prop :=
  ∃ t, exec i s = .next t ∧ (x ≠ vf → t.reg x = v) ∧ (f → t.reg vf = 1) ∧ (¬ f → t.reg vf = 0) ∧
    (∀ r, r ≠ x → r ≠ vf → t.reg r = s.reg r) ∧ t.pc = s.pc + 2 ∧ SameBytes s t ∧
    { t with V := s.V, pc := s.pc } = s

/-- `i` completes: the pc becomes `p` and nothing else changes. -/
def SetsPcOnly (i : Instr) (s : State) (p : Addr) : Prop := exec i s = .next { s with pc := p }

/-- `i` is the instruction of the opcode `op`, and `op` its encoding. -/
def Encodes (op : Opcode) (i : Instr) : Prop := decode op = .ok i ∧ encode i = op

/-- The run ends in `t` with the fault `r`, which leaves `s` as it was but for `mode` and `exclusive` and for the call that
releases the display when it was held (R191, R193). -/
def FaultsWith (s t : State) (r : FaultRecord) : Prop :=
  t.mode = .stopped (.fault r) ∧ t.exclusive = false ∧
    (s.exclusive = false → { t with mode := s.mode } = s) ∧
    (s.exclusive = true →
      t.log = .leaveExclusive :: s.log ∧
      { t with
        mode := s.mode, exclusive := true, log := s.log,
        env := { t.env with display := s.env.display } } = s)

/-! ## Sprites (R171 to R173) -/

/-- The sprite of `n` rows whose bytes are `rows 0`, `rows 1`, and so on, drawn with its corner at `(cx, cy)`, has a set bit
at the pixel `(px, py)`: column 0 is bit 7 of the row's byte (R173), and coordinates wrap (R172). -/
def SpriteCovers (rows : Nat → Byte) (cx cy n px py : Nat) : Prop :=
  ∃ row col, row < n ∧ col < 8 ∧ (rows row).getLsbD (7 - col) = true ∧ px = (cx + col) % 64 ∧ py = (cy + row) % 32

/-! ## Runs -/

/-- The instruction this cycle executes, if it executes one. -/
def State.instrNow (s : State) : Option Instr :=
  match s.mode with
  | .running =>
    if s.halt then none
    else
      match fetchInstr s with
      | .ok i => some i
      | .error _ => none
  | .waitingForKey _ => none
  | .stopped _ => none

/-- The step from `s` reaches sub-steps 6 to 8, and `t` is the state they start from: what the executed instruction left, if
the core still runs (40_execution_cycle.md R94, R95), or what the wait step left once `wait()` answered (R96: the key in
`V[x]` or `halt` set, the pc advanced by 2, the mode Running; D15). -/
inductive ReachesRender (s : State) : State → Prop where
  | executed {t : State} (i : Instr) (hi : s.instrNow = some i) (he : exec i s = .next t) (hm : t.mode = .running) :
    ReachesRender s t
  | key (x : RegIdx) (k : KeyCode) (hm : s.mode = .waitingForKey x) (ha : s.waitAnswer = .key k) :
    ReachesRender s { s.calledWait.setReg x (BitVec.ofNat 8 k.val) with pc := s.pc + 2, mode := .running }
  | quit (x : RegIdx) (hm : s.mode = .waitingForKey x) (ha : s.waitAnswer = .quit) :
    ReachesRender s { s.calledWait with halt := true, pc := s.pc + 2, mode := .running }

/-- From `u` to `t` the timers made one timer step at the sample `c` (60_exceptions.md R200, D16): both counted down once,
stopping at 0, and `last_tick` became the sample, exactly when the interval has elapsed. -/
def TimerStepAt (u t : State) (c : Nat) : Prop :=
  (u.lastTick + u.env.tickInterval ≤ c →
    t.DT.toNat = u.DT.toNat - 1 ∧ t.ST.toNat = u.ST.toNat - 1 ∧ t.lastTick = c) ∧
  (c < u.lastTick + u.env.tickInterval → t.DT = u.DT ∧ t.ST = u.ST ∧ t.lastTick = u.lastTick)

/-- From `s` to `t` the timers made exactly one timer step if the step ended running, and none if it did not. -/
def TimersOfStep (s t : State) : Prop :=
  (t.mode = .running → TimerStepAt s t s.clockSample) ∧
  (t.mode ≠ .running → t.DT = s.DT ∧ t.ST = s.ST ∧ t.lastTick = s.lastTick)

/-- Any number of steps from `s` to `t`. -/
inductive Run : State → State → Prop where
  | refl (s : State) : Run s s
  | step {s t u : State} (run : Run s t) (h : Machine.step t = .next u) : Run s u

/-- Any number of steps from `s` to `t`, none of which executes `Fx15` or `Fx18`. -/
inductive RunNoTimerWrite : State → State → Prop where
  | refl (s : State) : RunNoTimerWrite s s
  | step {s t u : State} (run : RunNoTimerWrite s t)
      (h : Machine.step t = .next u) (hq : ∀ i, t.instrNow = some i → ¬ i.writesDT ∧ ¬ i.writesST) : RunNoTimerWrite s u

/-- The calls of one kind in the history. -/
def State.countCalls (s : State) (p : Call → Bool) : Nat := s.log.countP p

/-- The call hands a framebuffer over. -/
def Call.isRender : Call → Bool
  | .render _ => true
  | _ => false

/-- Two states that differ at most in slots no return address occupies: index `sp` or above (R27). -/
def SameButStaleSlots (s t : State) : Prop :=
  { t with stack := s.stack } = s ∧ ∀ k, k < s.sp → t.slot k = s.slot k

end Sys2Proof.Machine
end

