-- ==== Sys2Proof/Certificates/Slice0/Obligations.lean ====
section
/-! DEFINITION. The statements for the provers. Each docstring names the rules of spec/ it formalises, and where a clause
rests on a decision of the spec (D<n> of 92_eei_decisions.md) or of the model (log <n>), it says so. -/

open Sys2Proof Sys2Proof.Machine

/-! ## Encoding -/

/-- Decoding the encoding of a well-formed instruction gives it back, with every operand (30_encoding.md §1 to §3). -/
def Obligations.DecodeOfEncode : Prop :=
  ∀ i : Instr, i.wf = true → decode (encode i) = .ok i

/-- What a word decodes to is well-formed and encodes to that word: no bit is dropped and no word has two readings
(30_encoding.md §3). -/
def Obligations.EncodeOfDecode : Prop :=
  ∀ (op : Opcode) (i : Instr), decode op = .ok i → i.wf = true ∧ encode i = op

/-- The decoder accepts exactly the opcodes that a row of the catalogue selects by mask and match, and refuses every other
by name (R73, R75, R76; the catalogue's family-8 nibbles are D34, the exact low nibbles D32). -/
def Obligations.DecodeFollowsCatalogue : Prop :=
  ∀ op : Opcode,
    ((∃ r ∈ opcodeTable, r.selects op = true) → ∃ i, decode op = .ok i) ∧
    ((¬ ∃ r ∈ opcodeTable, r.selects op = true) → decode op = .error (.noSuchInstruction op))

/-- "The patterns of rule R73 are disjoint: no 16-bit value matches two rows" (R75). -/
def Obligations.CatalogueRowsDisjoint : Prop :=
  ∀ (op : Opcode) (r r' : OpcodeRow), r ∈ opcodeTable → r' ∈ opcodeTable → r.selects op = true →
    r'.selects op = true → r = r'

/-- Words of the source's and the spec's examples decode to the instructions they stand for, and illegal ones are refused
(95_test_vectors.md S1, P1 to P5, X1 to X9). -/
def Obligations.WordsDecodeAsWritten : Prop :=
  decode 0x00E0#16 = .ok .cls ∧ decode 0x00EE#16 = .ok .ret ∧ decode 0x1212#16 = .ok (.jp 0x212) ∧
  decode 0x2210#16 = .ok (.call 0x210) ∧ decode 0x310B#16 = .ok (.seImm 1 0x0B) ∧
  decode 0x6A81#16 = .ok (.ldImm 10 0x81) ∧ decode 0x8AB5#16 = .ok (.subReg 10 11) ∧
  decode 0x8AAE#16 = .ok (.shl 10 10) ∧ decode 0xD125#16 = .ok (.drw 1 2 5) ∧ decode 0xE39E#16 = .ok (.skp 3) ∧
  decode 0xFC15#16 = .ok (.ldDTVx 12) ∧ decode 0xF265#16 = .ok (.ldRegs 2) ∧
  decode 0x0123#16 = .error (.noSuchInstruction 0x0123) ∧ decode 0x5121#16 = .error (.noSuchInstruction 0x5121) ∧
  decode 0x8008#16 = .error (.noSuchInstruction 0x8008) ∧ decode 0xF0FF#16 = .error (.noSuchInstruction 0xF0FF)

/-! ## Loads and arithmetic -/

/-- `6xnn` and `7xnn`: the encoding, the result, no flag, nothing else changed (R111, R112). -/
def Obligations.LoadAndAddImmediate : Prop :=
  ∀ (x : RegIdx) (nn : Byte) (s : State),
    Encodes (0x6#4 ++ nibbleOfReg x ++ nn) (.ldImm x nn) ∧ WritesReg (.ldImm x nn) s x nn ∧
    Encodes (0x7#4 ++ nibbleOfReg x ++ nn) (.addImm x nn) ∧
    WritesReg (.addImm x nn) s x (BitVec.ofNat 8 (((s.reg x).toNat + nn.toNat) % 256))

/-- `8xy0` to `8xy3`: copy, OR, AND, XOR; `VF` is written only as `V[x]` (R113 to R116; the low nibbles are D34). -/
def Obligations.CopyAndBitwise : Prop :=
  ∀ (x y : RegIdx) (s : State),
    Encodes (0x8#4 ++ nibbleOfReg x ++ nibbleOfReg y ++ 0x0#4) (.ldReg x y) ∧
    Encodes (0x8#4 ++ nibbleOfReg x ++ nibbleOfReg y ++ 0x1#4) (.orReg x y) ∧
    Encodes (0x8#4 ++ nibbleOfReg x ++ nibbleOfReg y ++ 0x2#4) (.andReg x y) ∧
    Encodes (0x8#4 ++ nibbleOfReg x ++ nibbleOfReg y ++ 0x3#4) (.xorReg x y) ∧
    WritesReg (.ldReg x y) s x (s.reg y) ∧ WritesReg (.orReg x y) s x (s.reg x ||| s.reg y) ∧
    WritesReg (.andReg x y) s x (s.reg x &&& s.reg y) ∧ WritesReg (.xorReg x y) s x (s.reg x ^^^ s.reg y)

/-- `8xy4`: the sum modulo 256, and `VF` 1 exactly when the exact sum exceeds 255; with x = 15 `VF` keeps the flag (R117;
that last clause is D9). -/
def Obligations.AddSetsCarry : Prop :=
  ∀ (x y : RegIdx) (s : State),
    Encodes (0x8#4 ++ nibbleOfReg x ++ nibbleOfReg y ++ 0x4#4) (.addReg x y) ∧
    WritesRegAndFlag (.addReg x y) s x (BitVec.ofNat 8 (((s.reg x).toNat + (s.reg y).toNat) % 256))
      (255 < (s.reg x).toNat + (s.reg y).toNat)

/-- `8xy5` and `8xy7`: the difference modulo 256, and `VF` 1 exactly when there is NO borrow (R118, R120; with x = 15 D9;
the nibble 7 is D34). -/
def Obligations.SubtractSetsNoBorrow : Prop :=
  ∀ (x y : RegIdx) (s : State),
    Encodes (0x8#4 ++ nibbleOfReg x ++ nibbleOfReg y ++ 0x5#4) (.subReg x y) ∧
    Encodes (0x8#4 ++ nibbleOfReg x ++ nibbleOfReg y ++ 0x7#4) (.subn x y) ∧
    WritesRegAndFlag (.subReg x y) s x (BitVec.ofNat 8 (((s.reg x).toNat + 256 - (s.reg y).toNat) % 256))
      ((s.reg y).toNat ≤ (s.reg x).toNat) ∧
    WritesRegAndFlag (.subn x y) s x (BitVec.ofNat 8 (((s.reg y).toNat + 256 - (s.reg x).toNat) % 256))
      ((s.reg x).toNat ≤ (s.reg y).toNat)

/-- `8xy6` and `8xyE`: `V[x]` shifted by one, and `VF` the bit shifted out, as 0 or 1, whatever y is (R119, R121; that the
operand is `V[x]` is D8, x = 15 is D9, the low nibbles D34). -/
def Obligations.ShiftsSetShiftedBit : Prop :=
  ∀ (x y : RegIdx) (s : State),
    Encodes (0x8#4 ++ nibbleOfReg x ++ nibbleOfReg y ++ 0x6#4) (.shr x y) ∧
    Encodes (0x8#4 ++ nibbleOfReg x ++ nibbleOfReg y ++ 0xE#4) (.shl x y) ∧
    WritesRegAndFlag (.shr x y) s x (BitVec.ofNat 8 ((s.reg x).toNat / 2)) ((s.reg x).toNat % 2 = 1) ∧
    WritesRegAndFlag (.shl x y) s x (BitVec.ofNat 8 ((s.reg x).toNat * 2 % 256)) (128 ≤ (s.reg x).toNat)

/-! ## Control flow -/

/-- `1nnn` sets the pc to `nnn` exactly, `Bnnn` to the exact sum `nnn + V0`; nothing else changes (R132, R135; that the sum
does not wrap is D1, D2). -/
def Obligations.JumpsSetPcExactly : Prop :=
  ∀ (a : BitVec 12) (s : State),
    Encodes (0x1#4 ++ a) (.jp (a.setWidth 16)) ∧ SetsPcOnly (.jp (a.setWidth 16)) s (a.setWidth 16) ∧
    Encodes (0xB#4 ++ a) (.jpV0 (a.setWidth 16)) ∧
    ∃ p : Addr, p.toNat = a.toNat + (s.reg 0).toNat ∧ SetsPcOnly (.jpV0 (a.setWidth 16)) s p

/-- `2nnn` with a free slot pushes its own address plus 2 and jumps; with 16 entries it raises StackOverflow and changes
nothing (R130, R133; the record's fields are D28, what a fault leaves D21). -/
def Obligations.CallPushesReturnAddress : Prop :=
  ∀ (a : BitVec 12) (s : State),
    Encodes (0x2#4 ++ a) (.call (a.setWidth 16)) ∧
    (s.sp < 16 → ∃ t, exec (.call (a.setWidth 16)) s = .next t ∧ t.slot s.sp = s.pc + 2 ∧
      (∀ k, k ≠ s.sp → t.slot k = s.slot k) ∧ t.sp = s.sp + 1 ∧ t.pc = a.setWidth 16 ∧ SameBytes s t ∧
      { t with stack := s.stack, sp := s.sp, pc := s.pc } = s) ∧
    (s.sp = 16 → ∃ t, exec (.call (a.setWidth 16)) s = .next t ∧
      FaultsWith s t (.stackOverflow s.pc (0x2#4 ++ a) .call 16))

/-- `00EE` with an occupied slot resumes at the popped address exactly, leaving the slot's content; with an empty stack it
raises StackUnderflow and changes nothing (R131, R134; the record's fields are D28, the stale slot D4, what a fault leaves
D21). -/
def Obligations.ReturnPopsReturnAddress : Prop :=
  Encodes 0x00EE#16 .ret ∧
  ∀ s : State,
    (s.sp ≠ 0 → ∃ t, exec .ret s = .next t ∧ t.pc = s.slot (s.sp - 1) ∧ t.sp = s.sp - 1 ∧ SameBytes s t ∧
      { t with sp := s.sp, pc := s.pc } = s) ∧
    (s.sp = 0 → ∃ t, exec .ret s = .next t ∧ FaultsWith s t (.stackUnderflow s.pc 0x00EE .ret 0))

/-- "Stack round-trip": a call and then a return resume at the call's address plus 2 with the stack pointer as it was
(R133, R134, C5; 95_test_vectors.md S6). -/
def Obligations.CallThenReturnResumes : Prop :=
  ∀ (a : BitVec 12) (s : State), s.sp < 16 → s.pc.toNat ≤ 0xFFE →
    ∃ t u, exec (.call (a.setWidth 16)) s = .next t ∧ exec .ret t = .next u ∧ u.pc.toNat = s.pc.toNat + 2 ∧
      u.sp = s.sp ∧ { u with pc := s.pc, stack := s.stack } = s

/-! ## Skips -/

/-- `3xnn` and `4xnn` advance by 4 when the condition holds and by 2 when not, and change nothing else (R141, R142). -/
def Obligations.SkipOnImmediate : Prop :=
  ∀ (x : RegIdx) (nn : Byte) (s : State),
    Encodes (0x3#4 ++ nibbleOfReg x ++ nn) (.seImm x nn) ∧ Encodes (0x4#4 ++ nibbleOfReg x ++ nn) (.sneImm x nn) ∧
    SetsPcOnly (.seImm x nn) s (if s.reg x = nn then s.pc + 4 else s.pc + 2) ∧
    SetsPcOnly (.sneImm x nn) s (if s.reg x = nn then s.pc + 2 else s.pc + 4)

/-- `5xy0` and `9xy0`, and the refusal of every other low nibble (R143, R144; the strict nibble is D32). -/
def Obligations.SkipOnRegisters : Prop :=
  ∀ (x y : RegIdx) (s : State),
    Encodes (0x5#4 ++ nibbleOfReg x ++ nibbleOfReg y ++ 0x0#4) (.seReg x y) ∧
    Encodes (0x9#4 ++ nibbleOfReg x ++ nibbleOfReg y ++ 0x0#4) (.sneReg x y) ∧
    SetsPcOnly (.seReg x y) s (if s.reg x = s.reg y then s.pc + 4 else s.pc + 2) ∧
    SetsPcOnly (.sneReg x y) s (if s.reg x = s.reg y then s.pc + 2 else s.pc + 4) ∧
    ∀ n : Nibble, n ≠ 0x0#4 →
      decode (0x5#4 ++ nibbleOfReg x ++ nibbleOfReg y ++ n) =
        .error (.noSuchInstruction (0x5#4 ++ nibbleOfReg x ++ nibbleOfReg y ++ n)) ∧
      decode (0x9#4 ++ nibbleOfReg x ++ nibbleOfReg y ++ n) =
        .error (.noSuchInstruction (0x9#4 ++ nibbleOfReg x ++ nibbleOfReg y ++ n))

/-- `Ex9E` and `ExA1` test the latch entry `V[x]`; a value above 0xF raises KeyIndexOutOfRange and changes nothing (R145 to
R147; the fault is D13, its record D28). -/
def Obligations.SkipOnKey : Prop :=
  ∀ (x : RegIdx) (s : State),
    Encodes (0xE#4 ++ nibbleOfReg x ++ 0x9E#8) (.skp x) ∧ Encodes (0xE#4 ++ nibbleOfReg x ++ 0xA1#8) (.sknp x) ∧
    (∀ k : KeyCode, (s.reg x).toNat = k.val →
      SetsPcOnly (.skp x) s (if s.pressed k = true then s.pc + 4 else s.pc + 2) ∧
      SetsPcOnly (.sknp x) s (if s.pressed k = true then s.pc + 2 else s.pc + 4)) ∧
    (0xF < (s.reg x).toNat →
      (∃ t, exec (.skp x) s = .next t ∧
        FaultsWith s t (.keyIndexOutOfRange s.pc (0xE#4 ++ nibbleOfReg x ++ 0x9E#8) (s.reg x))) ∧
      (∃ t, exec (.sknp x) s = .next t ∧
        FaultsWith s t (.keyIndexOutOfRange s.pc (0xE#4 ++ nibbleOfReg x ++ 0xA1#8) (s.reg x))))

/-! ## Index register and memory -/

/-- `Annn`: `I` becomes `nnn`, and nothing else changes (R150). -/
def Obligations.LoadIndex : Prop :=
  ∀ (a : BitVec 12) (s : State),
    Encodes (0xA#4 ++ a) (.ldI (a.setWidth 16)) ∧
    exec (.ldI (a.setWidth 16)) s = .next { s with I := a.setWidth 16, pc := s.pc + 2 }

/-- `Fx1E`: `I + V[x]` modulo 2^16 with no flag; `Fx29`: the address of the glyph of the low nibble of `V[x]` (R151, R152;
D5, D10). -/
def Obligations.AddToIndexAndGlyph : Prop :=
  ∀ (x : RegIdx) (s : State),
    Encodes (0xF#4 ++ nibbleOfReg x ++ 0x1E#8) (.addI x) ∧ Encodes (0xF#4 ++ nibbleOfReg x ++ 0x29#8) (.ldF x) ∧
    exec (.addI x) s =
      .next { s with I := BitVec.ofNat 16 ((s.I.toNat + (s.reg x).toNat) % 65536), pc := s.pc + 2 } ∧
    exec (.ldF x) s = .next { s with I := BitVec.ofNat 16 (0x050 + 5 * ((s.reg x).toNat % 16)), pc := s.pc + 2 }

/-- `Fx33`: the three digits at `I`, `I+1`, `I+2`, every other byte as before; with an address above 0xFFF it raises
MemoryOutOfBounds with the lowest such address and changes nothing (R153, R54; D6, D12; canonical memory is log 15). -/
def Obligations.StoreDecimalDigits : Prop :=
  ∀ (x : RegIdx) (s : State), s.mem.wf = true →
    Encodes (0xF#4 ++ nibbleOfReg x ++ 0x33#8) (.ldB x) ∧
    (s.I.toNat + 2 ≤ 0xFFF → ∃ t, exec (.ldB x) s = .next t ∧
      (t.byte (s.effAddr 0)).toNat = (s.reg x).toNat / 100 ∧
      (t.byte (s.effAddr 1)).toNat = (s.reg x).toNat / 10 % 10 ∧
      (t.byte (s.effAddr 2)).toNat = (s.reg x).toNat % 10 ∧
      SameBytesOutside s t (s.effAddr 0) 3 ∧ t.pc = s.pc + 2 ∧ { t with mem := s.mem, pc := s.pc } = s) ∧
    (0xFFF < s.I.toNat + 2 → ∃ t, exec (.ldB x) s = .next t ∧
      FaultsWith s t
        (.memoryOutOfBounds s.pc (0xF#4 ++ nibbleOfReg x ++ 0x33#8) (max s.I.toNat 0x1000)))

/-- `Fx55`: `V0` to `Vx` at `I` to `I+x`, every other byte as before, `I` unchanged; out of bounds as `Fx33` (R154, R54;
D6, D11; canonical memory is log 15). -/
def Obligations.StoreRegisterBlock : Prop :=
  ∀ (x : RegIdx) (s : State), s.mem.wf = true →
    Encodes (0xF#4 ++ nibbleOfReg x ++ 0x55#8) (.stRegs x) ∧
    (s.I.toNat + x.val ≤ 0xFFF → ∃ t, exec (.stRegs x) s = .next t ∧
      (∀ k : RegIdx, k ≤ x → t.byte (s.effAddr k.val) = s.reg k) ∧
      SameBytesOutside s t (s.effAddr 0) (x.val + 1) ∧ t.pc = s.pc + 2 ∧ { t with mem := s.mem, pc := s.pc } = s) ∧
    (0xFFF < s.I.toNat + x.val → ∃ t, exec (.stRegs x) s = .next t ∧
      FaultsWith s t
        (.memoryOutOfBounds s.pc (0xF#4 ++ nibbleOfReg x ++ 0x55#8) (max s.I.toNat 0x1000)))

/-- `Fx65`: `V0` to `Vx` loaded from `I` to `I+x`, the registers above and all else unchanged; out of bounds as `Fx33`
(R155, R54; D6, D11). -/
def Obligations.LoadRegisterBlock : Prop :=
  ∀ (x : RegIdx) (s : State),
    Encodes (0xF#4 ++ nibbleOfReg x ++ 0x65#8) (.ldRegs x) ∧
    (s.I.toNat + x.val ≤ 0xFFF → ∃ t, exec (.ldRegs x) s = .next t ∧
      (∀ k : RegIdx, k ≤ x → t.reg k = s.byte (s.effAddr k.val)) ∧ (∀ k : RegIdx, x < k → t.reg k = s.reg k) ∧
      t.pc = s.pc + 2 ∧ SameBytes s t ∧ { t with V := s.V, pc := s.pc } = s) ∧
    (0xFFF < s.I.toNat + x.val → ∃ t, exec (.ldRegs x) s = .next t ∧
      FaultsWith s t
        (.memoryOutOfBounds s.pc (0xF#4 ++ nibbleOfReg x ++ 0x65#8) (max s.I.toNat 0x1000)))

/-- "A byte written by `Fx33` or `Fx55` is seen by every later fetch of that address" (R60; R53, R57): the words stored by
`Fx55` are the opcodes fetched there (canonical memory is log 15). -/
def Obligations.StoredBytesAreFetched : Prop :=
  ∀ (x : RegIdx) (s : State), s.mem.wf = true → s.I.toNat + x.val ≤ 0xFFF →
    ∃ t, exec (.stRegs x) s = .next t ∧
      ∀ (j k : RegIdx) (p : Addr), j.val + 1 = k.val → k ≤ x → p.toNat = s.I.toNat + j.val →
        State.opcodeAtPc { t with pc := p } = s.reg j ++ s.reg k

/-! ## Display -/

/-- `00E0`: every pixel 0, `dirty` set, and nothing else changed, `VF` included (R170, R174; `dirty` on an already clear
framebuffer is D22). -/
def Obligations.ClearScreen : Prop :=
  Encodes 0x00E0#16 .cls ∧
  ∀ s : State, ∃ t, exec .cls s = .next t ∧ (∀ px py, t.fb.pixel px py = false) ∧ t.dirty = true ∧ t.pc = s.pc + 2 ∧
    SameBytes s t ∧ { t with fb := s.fb, dirty := s.dirty, pc := s.pc } = s

/-- `Dxyn`: exactly the pixels the wrapped sprite covers flip, `VF` is 1 exactly when one of them was set, `dirty` is set,
the coordinates are those before the instruction, nothing else changes; a row above 0xFFF raises MemoryOutOfBounds and
changes nothing (R171 to R174, R54; D6, D22, D35). -/
def Obligations.DrawFlipsCoveredPixels : Prop :=
  ∀ (x y : RegIdx) (n : Nat) (s : State), n ≤ 15 →
    Encodes (0xD#4 ++ nibbleOfReg x ++ nibbleOfReg y ++ BitVec.ofNat 4 n) (.drw x y n) ∧
    (n = 0 ∨ s.I.toNat + (n - 1) ≤ 0xFFF → ∃ t, exec (.drw x y n) s = .next t ∧
      (∀ px py, SpriteCovers (fun k => s.byte (s.effAddr k)) (s.reg x).toNat (s.reg y).toNat n px py →
        t.fb.pixel px py = !s.fb.pixel px py) ∧
      (∀ px py, ¬ SpriteCovers (fun k => s.byte (s.effAddr k)) (s.reg x).toNat (s.reg y).toNat n px py →
        t.fb.pixel px py = s.fb.pixel px py) ∧
      ((∃ px py, SpriteCovers (fun k => s.byte (s.effAddr k)) (s.reg x).toNat (s.reg y).toNat n px py ∧
        s.fb.pixel px py = true) → t.reg vf = 1) ∧
      ((¬ ∃ px py, SpriteCovers (fun k => s.byte (s.effAddr k)) (s.reg x).toNat (s.reg y).toNat n px py ∧
        s.fb.pixel px py = true) → t.reg vf = 0) ∧
      (∀ r, r ≠ vf → t.reg r = s.reg r) ∧ t.dirty = true ∧ t.pc = s.pc + 2 ∧ SameBytes s t ∧
      { t with fb := s.fb, dirty := s.dirty, V := s.V, pc := s.pc } = s) ∧
    (0 < n → 0xFFF < s.I.toNat + (n - 1) → ∃ t, exec (.drw x y n) s = .next t ∧
      FaultsWith s t
        (.memoryOutOfBounds s.pc (0xD#4 ++ nibbleOfReg x ++ nibbleOfReg y ++ BitVec.ofNat 4 n)
          (max s.I.toNat 0x1000)))

/-- Drawing a sprite twice at one place gives every pixel back, and the second draw collides exactly when the first turned
a pixel on (R171; 95_test_vectors.md S3). The coordinates must not be `VF`, which the first draw overwrites (D22). -/
def Obligations.DrawTwiceRestores : Prop :=
  ∀ (x y : RegIdx) (n : Nat) (s : State), n ≤ 15 → x ≠ vf → y ≠ vf → n = 0 ∨ s.I.toNat + (n - 1) ≤ 0xFFF →
    ∃ t u, exec (.drw x y n) s = .next t ∧ exec (.drw x y n) t = .next u ∧
      (∀ px py, u.fb.pixel px py = s.fb.pixel px py) ∧
      (u.reg vf = 1 ↔ ∃ px py,
        SpriteCovers (fun k => s.byte (s.effAddr k)) (s.reg x).toNat (s.reg y).toNat n px py ∧
          s.fb.pixel px py = false)

/-! ## Timers, key wait, random -/

/-- `Fx07` reads the delay timer, `Fx15` and `Fx18` write the timers, and nothing else changes (R180 to R182). -/
def Obligations.TimerAccess : Prop :=
  ∀ (x : RegIdx) (s : State),
    Encodes (0xF#4 ++ nibbleOfReg x ++ 0x07#8) (.ldVxDT x) ∧ Encodes (0xF#4 ++ nibbleOfReg x ++ 0x15#8) (.ldDTVx x) ∧
    Encodes (0xF#4 ++ nibbleOfReg x ++ 0x18#8) (.ldSTVx x) ∧ WritesReg (.ldVxDT x) s x s.DT ∧
    exec (.ldDTVx x) s = .next { s with DT := s.reg x, pc := s.pc + 2 } ∧
    exec (.ldSTVx x) s = .next { s with ST := s.reg x, pc := s.pc + 2 }

/-- `Fx0A` suspends the core and does nothing else, and in the cycle that executes it no render, poll or timer step runs
(R183, R94, R95; that the wait step is a transition of its own is log 10). -/
def Obligations.KeyWaitBegins : Prop :=
  ∀ (x : RegIdx) (s : State),
    Encodes (0xF#4 ++ nibbleOfReg x ++ 0x0A#8) (.ldVxK x) ∧
    exec (.ldVxK x) s = .next { s with mode := .waitingForKey x } ∧
    (s.instrNow = some (.ldVxK x) → step s = .next { s with mode := .waitingForKey x })

/-- The wait step. A key goes to `V[x]` and to no other register, and `halt` stays unless the poll answers Quit; Quit sets
`halt` and leaves the registers. Either advances the pc by 2 and leaves `I`, the stack, memory and the framebuffer, and the
timers make one timer step (at most one tick of both, at the sample of this step) if the step ends running and none if it
does not. An error ends the run, and while `wait()` has not answered the core does not change (R96, R202, R200, R198;
D15, D16, D29, log 10). -/
def Obligations.WaitStepCompletesKeyWait : Prop :=
  ∀ (x : RegIdx) (s : State), s.mode = .waitingForKey x →
    (∀ k, s.waitAnswer = .key k → ∃ t, step s = .next t ∧ (t.reg x).toNat = k.val ∧
      (∀ r, r ≠ x → t.reg r = s.reg r) ∧ (t.halt = true → s.halt = true ∨ s.pollAnswer = .quit) ∧
      (s.halt = true → t.halt = true) ∧ t.pc = s.pc + 2 ∧ (∀ y, t.mode ≠ .waitingForKey y) ∧ SameBytes s t ∧
      t.mem = s.mem ∧ t.I = s.I ∧ t.stack = s.stack ∧ t.sp = s.sp ∧ t.fb = s.fb ∧ TimersOfStep s t) ∧
    (s.waitAnswer = .quit → ∃ t, step s = .next t ∧ t.halt = true ∧ t.V = s.V ∧ t.pc = s.pc + 2 ∧
      (∀ y, t.mode ≠ .waitingForKey y) ∧ SameBytes s t ∧
      t.mem = s.mem ∧ t.I = s.I ∧ t.stack = s.stack ∧ t.sp = s.sp ∧ t.fb = s.fb ∧ TimersOfStep s t) ∧
    (∀ e, s.waitAnswer = .error e → ∃ t, step s = .next t ∧
      FaultsWith s.calledWait t (.collaboratorError .wait e)) ∧
    (s.waitAnswer = .notYet →
      step s = .next { s with env := { s.env with waits := s.env.waits.rest } })

/-- `Cxnn`: the random byte masked with `nn`, whichever byte the environment gives, and one byte asked for; nothing else
changes (R184; D19; how the environment's bytes are supplied is log 2). -/
def Obligations.RandomByteMasked : Prop :=
  ∀ (x : RegIdx) (nn : Byte) (s : State),
    Encodes (0xC#4 ++ nibbleOfReg x ++ nn) (.rnd x nn) ∧
    (∀ r rest, s.env.random.pending = r :: rest → s.randomByte = r) ∧
    ∃ t, exec (.rnd x nn) s = .next t ∧ t.reg x = s.randomByte &&& nn ∧ (∀ r, r ≠ x → t.reg r = s.reg r) ∧
      t.pc = s.pc + 2 ∧ SameBytes s t ∧ t.log = .randomByte :: s.log ∧
      { t with V := s.V, pc := s.pc, log := s.log, env := { t.env with random := s.env.random } } = s

/-! ## The cycle -/

/-- When the two bytes at the pc, most significant first, decode to an instruction, a step of a running core with no Quit
pending is that instruction's execution and then, unless it suspended the core or ended the run, render, poll and the timer
step (R90, R92 to R95, R101). -/
def Obligations.StepRunsDecodedInstruction : Prop :=
  ∀ (s : State) (i : Instr), s.mode = .running → s.halt = false → s.pc.toNat ≤ 0xFFE →
    decode (s.byte s.pc.toNat ++ s.byte (s.pc.toNat + 1)) = .ok i →
    s.instrNow = some i ∧ i.wf = true ∧
      ∃ t, exec i s = .next t ∧
        (t.mode = .running → step s = .next (((render t).whileRunning poll).whileRunning timerStep)) ∧
        (t.mode ≠ .running → step s = .next t)

/-- A fetch above 0xFFE raises PcOutOfBounds; an opcode no row of the catalogue selects raises DecodeError with the pc and
the opcode; neither changes anything else (R53, R76, R92, R93, R191; D2, D21, D32). -/
def Obligations.FetchAndDecodeFaults : Prop :=
  ∀ s : State, s.mode = .running → s.halt = false →
    (0xFFE < s.pc.toNat → ∃ t, step s = .next t ∧ FaultsWith s t (.pcOutOfBounds s.pc)) ∧
    (s.pc.toNat ≤ 0xFFE →
      (¬ ∃ r ∈ opcodeTable, r.selects (s.byte s.pc.toNat ++ s.byte (s.pc.toNat + 1)) = true) →
      ∃ t, step s = .next t ∧
        FaultsWith s t (.decodeError s.pc (s.byte s.pc.toNat ++ s.byte (s.pc.toNat + 1))))

/-- A pending Quit ends the run before any fetch, with the outcome Quit unless `leave_exclusive_mode` fails; nothing but
`mode`, `exclusive` and that call changes (R91, R193, R195; the failing release is D29). -/
def Obligations.HaltCheckEndsRun : Prop :=
  ∀ s : State, s.mode = .running → s.halt = true →
    (s.exclusive = false → step s = .next { s with mode := .stopped .quit }) ∧
    (s.exclusive = true → ∃ t, step s = .next t ∧ t.exclusive = false ∧ t.log = .leaveExclusive :: s.log ∧
      (s.displayAnswer = .ok → t.mode = .stopped .quit) ∧
      (∀ e, s.displayAnswer = .error e → t.mode = .stopped (.fault (.collaboratorError .leaveExclusive e))) ∧
      { t with
        mode := s.mode, exclusive := true, log := s.log, env := { t.env with display := s.env.display } } = s)

/-- A stopped core has no step (R35; the model answers by its own fault, log 1). -/
def Obligations.StoppedHasNoStep : Prop :=
  ∀ (s : State) (o : RunOutcome), s.mode = .stopped o → step s = .fault (.runEnded o)

/-- The advance: +2, +4, or exactly the target, never wrapping from a pc that can be fetched from; `Wait` leaves the pc, and
the sub-steps render, poll and timer step (`finishCycle`) run not in that cycle but at the end of the wait step (R95). The
clauses on the wait step are R96, which the spec marks as its decision D15 (log 25); that the wait step is a transition of
its own is the model's choice (log 10). -/
def Obligations.AdvanceIsExact : Prop :=
  ∀ s : State,
    (s.pc.toNat ≤ 0xFFE → (advance .next s).pc.toNat = s.pc.toNat + 2 ∧ (advance .skip s).pc.toNat = s.pc.toNat + 4) ∧
    (∀ t, advance (.jump t) s = { s with pc := t }) ∧
    (∀ x, advance (.wait x) s = { s with mode := .waitingForKey x } ∧
      (∀ i, s.instrNow = some i → exec i s = .next (advance (.wait x) s) →
        step s = .next (advance (.wait x) s))) ∧
    (∀ x, s.mode = .waitingForKey x →
      (∀ k, s.waitAnswer = .key k →
        step s = .next (finishCycle
          { s.calledWait.setReg x (BitVec.ofNat 8 k.val) with pc := s.pc + 2, mode := .running })) ∧
      (s.waitAnswer = .quit →
        step s = .next (finishCycle { s.calledWait with halt := true, pc := s.pc + 2, mode := .running }))) ∧
    { advance .next s with pc := s.pc } = s ∧ { advance .skip s with pc := s.pc } = s

/-- A fault raised in execute is precise (R191; D21). -/
def Obligations.FaultsArePrecise : Prop :=
  ∀ (i : Instr) (s t : State) (r : FaultRecord), s.mode = .running → exec i s = .next t →
    t.mode = .stopped (.fault r) → FaultsWith s t r

/-- The faults of execute: each instruction has at most one kind, and the record carries the pc, the opcode and the kind's
own field (R190, R195; D25, D28). -/
def Obligations.FaultRecordsNameInstruction : Prop :=
  ∀ (i : Instr) (s t : State) (r : FaultRecord), s.mode = .running → s.sp ≤ 16 → exec i s = .next t →
    t.mode = .stopped (.fault r) →
    ((∃ nnn, i = .call nnn) ∧ s.sp = 16 ∧ r = .stackOverflow s.pc (encode i) .call 16) ∨
    (i = .ret ∧ s.sp = 0 ∧ r = .stackUnderflow s.pc (encode i) .ret 0) ∨
    ((∃ x, (i = .skp x ∨ i = .sknp x) ∧ 0xF < (s.reg x).toNat ∧ r = .keyIndexOutOfRange s.pc (encode i) (s.reg x))) ∨
    ((i.storesMemory ∨ (∃ x, i = .ldRegs x) ∨ (∃ x y n, i = .drw x y n)) ∧
      r = .memoryOutOfBounds s.pc (encode i) (max s.I.toNat 0x1000))

/-- In one step at most one framebuffer is handed over; it is the framebuffer the step ends with; and the step either found
`dirty` set or executed `00E0` or `Dxyn` (R97, R174). -/
def Obligations.OneSnapshotPerStep : Prop :=
  ∀ s t : State, step s = .next t →
    ∃ new, t.log = new ++ s.log ∧ new.countP Call.isRender ≤ 1 ∧ (∀ fb, .render fb ∈ new → fb = t.fb) ∧
      ((∃ fb, .render fb ∈ new) → s.dirty = true ∨ ∃ i, s.instrNow = some i ∧ i.writesFb)

/-- After a completed cycle the latch shows the key this cycle's poll answered and no other, and a Quit is pending when the
poll answered Quit (R98; D14). -/
def Obligations.PollRebuildsLatch : Prop :=
  ∀ s t : State, step s = .next t → t.mode = .running →
    (∀ k, t.pressed k = true ↔ s.pollAnswer = .key k) ∧ (s.pollAnswer = .quit → t.halt = true) ∧
      (∀ e, s.pollAnswer ≠ .error e)

/-- In every step that reaches the timer step and ends running, a completed wait step among them, both timers tick together,
once, exactly when the sample lies `TICK_INTERVAL` or more after the last tick, each stopping at 0; an instruction other than
`Fx15` and `Fx18` leaves the values they tick from, and a value written by `Fx15` or `Fx18` may be ticked in its own cycle
(R96, R99, R200, R202, R226; D15, D16). -/
def Obligations.TimersTickOnce : Prop :=
  ∀ s t u : State, ReachesRender s u → step s = .next t → t.mode = .running →
    t.env.lastSample = s.clockSample ∧ TimerStepAt u t s.clockSample ∧
    u.lastTick = s.lastTick ∧ u.env.tickInterval = s.env.tickInterval ∧
    (∀ i, s.instrNow = some i → (¬ i.writesDT → u.DT = s.DT) ∧ (¬ i.writesST → u.ST = s.ST)) ∧
    (s.instrNow = none → u.DT = s.DT ∧ u.ST = s.ST)

/-- After an executed instruction or a completed wait step (the state `t`), a failing `render` ends the run with that effect
kept, the pc advanced and `dirty` still set, before the poll; a failing `poll` ends it after the render and before the timer
step (R96, R101, R195, R198; D15, D29). -/
def Obligations.CollaboratorErrorKeepsEffects : Prop :=
  ∀ (s t : State) (e : CollabError), ReachesRender s t →
    (t.dirty = true → t.displayAnswer = .error e → ∃ u, step s = .next u ∧
      FaultsWith (t.calledDisplay (.render t.fb)) u (.collaboratorError .render e)) ∧
    (t.dirty = false → t.pollAnswer = .error e → ∃ u, step s = .next u ∧
      FaultsWith t.calledPoll u (.collaboratorError .poll e)) ∧
    (t.dirty = true → t.displayAnswer = .ok → t.pollAnswer = .error e → ∃ u, step s = .next u ∧
      FaultsWith (State.calledPoll { t.calledDisplay (.render t.fb) with dirty := false }) u
        (.collaboratorError .poll e))

/-- After an executed instruction or a completed wait step (the state `t`), a cycle in which no collaborator fails completes:
the core still runs, the framebuffer is handed over if it was dirty, the poll and the clock sample follow in that order,
`dirty` ends false, the latch and `halt` are as the poll answers, and the timers make one timer step. Sub-steps 6 to 8 change
nothing else: memory, the registers, `I`, the pc, the stack, the framebuffer and the exclusive mode are as `t` left them, and
in the environment only the sources that were asked move on (R90, R96 to R99, R200, R205; D14, D15, D16; how answers are
supplied is log 2, the history log 8). -/
def Obligations.CycleCompletesWhenNothingFails : Prop :=
  ∀ s t : State, ReachesRender s t → (t.dirty = true → t.displayAnswer = .ok) → (∀ e, t.pollAnswer ≠ .error e) →
    ∃ u, step s = .next u ∧ u.mode = .running ∧ u.dirty = false ∧
      u.log = .clockSample :: .poll :: ((if t.dirty = true then [.render t.fb] else []) ++ t.log) ∧
      (u.halt = true ↔ t.halt = true ∨ t.pollAnswer = .quit) ∧ (∀ k, u.pressed k = true ↔ t.pollAnswer = .key k) ∧
      TimerStepAt t u t.clockSample ∧ u.env.lastSample = t.clockSample ∧
      u.mem = t.mem ∧ u.V = t.V ∧ u.I = t.I ∧ u.pc = t.pc ∧ u.stack = t.stack ∧ u.sp = t.sp ∧ u.fb = t.fb ∧
      u.exclusive = t.exclusive ∧ u.env.tickInterval = t.env.tickInterval ∧ u.env.random = t.env.random ∧
      u.env.waits = t.env.waits ∧ u.env.polls = t.env.polls.rest ∧ u.env.clock = t.env.clock.rest ∧
      u.env.display = (if t.dirty = true then t.env.display.rest else t.env.display)

/-- However a run ends, the step that ends it releases the display, once, if it was held; and a step that does not end it
releases nothing (R193). -/
def Obligations.ExitReleasesDisplayOnce : Prop :=
  ∀ s t : State, step s = .next t →
    ((∃ o, t.mode = .stopped o) ∧ t.exclusive = false ∧
      t.countCalls (· == .leaveExclusive) =
        s.countCalls (· == .leaveExclusive) + (if s.exclusive = true then 1 else 0)) ∨
    ((∀ o, t.mode ≠ .stopped o) ∧ t.exclusive = s.exclusive ∧
      t.countCalls (· == .leaveExclusive) = s.countCalls (· == .leaveExclusive))

/-- The clock never runs backward, a completed cycle samples it exactly once, and no step changes `TICK_INTERVAL` (R203,
R204; D17, D18; log 3, log 4). -/
def Obligations.ClockNeverRunsBackward : Prop :=
  ∀ s t : State, step s = .next t →
    s.env.lastSample ≤ t.env.lastSample ∧ t.env.tickInterval = s.env.tickInterval ∧
    (t.mode = .running → t.countCalls (· == .clockSample) = s.countCalls (· == .clockSample) + 1) ∧
    (t.mode ≠ .running → t.env.lastSample = s.env.lastSample ∧
      t.countCalls (· == .clockSample) = s.countCalls (· == .clockSample))

/-! ## Reset and boot -/

/-- The state after reset (R41, R220; the values of `I`, `fb`, `dirty`, `keys`, `halt` are D20, log 6; the origin of time is
log 3). -/
def Obligations.ResetValues : Prop :=
  (∀ a, a < 0x050 ∨ 0x09F < a → State.reset.byte a = 0) ∧ (∀ x, State.reset.reg x = 0) ∧ State.reset.I = 0 ∧
  State.reset.pc = 0x200 ∧ (∀ k, State.reset.slot k = 0) ∧ State.reset.sp = 0 ∧ State.reset.DT = 0 ∧
  State.reset.ST = 0 ∧ State.reset.lastTick = State.reset.env.lastSample ∧
  (∀ px py, State.reset.fb.pixel px py = false) ∧ State.reset.dirty = false ∧
  (∀ k, State.reset.pressed k = false) ∧ State.reset.halt = false ∧ State.reset.mode = .running ∧
  State.reset.exclusive = false

/-- Whatever the 80 glyph bytes are, reset puts them at 0x050 to 0x09F and leaves every other byte 0; the reset with the
default font is `State.reset` (R43, R220, R221; the layout is D10, the bytes D33, log 5). -/
def Obligations.ResetInstallsFont : Prop :=
  (∀ (font : List Byte) (tick : Nat), font.length = 80 →
    (∀ k, k < 80 → (State.resetWith font tick).byte (0x050 + k) = font.getD k 0) ∧
    (∀ a, a < 0x050 ∨ 0x09F < a → (State.resetWith font tick).byte a = 0)) ∧
  defaultFont.length = 80 ∧ State.resetWith defaultFont Config.defaultTickInterval = State.reset

/-- `load(bytes)`: the bytes at 0x200 on and every other byte as before, or LoadError and no byte written (R55; canonical
memory is log 15). -/
def Obligations.LoadPlacesRom : Prop :=
  ∀ (bytes : List Byte) (s : State), s.mem.wf = true →
    (bytes.length ≤ 3584 →
      (∀ k, k < bytes.length → (load bytes s).byte (0x200 + k) = bytes.getD k 0) ∧
      SameBytesOutside s (load bytes s) 0x200 bytes.length ∧ { load bytes s with mem := s.mem } = s) ∧
    (3584 < bytes.length → FaultsWith s (load bytes s) (.loadError bytes.length) ∧ SameBytes s (load bytes s))

/-- Boot after reset: load, then enter the exclusive mode, the pc still at its reset value; a failing entry ends the run with
nothing to release, and an oversize ROM ends it without a call to the display (R199, R222; the order is D30, the failing
entry D29). -/
def Obligations.BootEntersExclusiveMode : Prop :=
  ∀ (bytes : List Byte) (s : State), s.mode = .running → s.exclusive = false →
    (bytes.length ≤ 3584 → s.displayAnswer = .ok →
      (boot bytes s).exclusive = true ∧ (boot bytes s).mode = .running ∧ (boot bytes s).pc = s.pc ∧
        (boot bytes s).mem = (load bytes s).mem ∧ (boot bytes s).log = .enterExclusive :: s.log) ∧
    (∀ e, bytes.length ≤ 3584 → s.displayAnswer = .error e →
      (boot bytes s).exclusive = false ∧
        (boot bytes s).mode = .stopped (.fault (.collaboratorError .enterExclusive e)) ∧
        (boot bytes s).log = .enterExclusive :: s.log) ∧
    (3584 < bytes.length → boot bytes s = { s with mode := .stopped (.fault (.loadError bytes.length)) })

/-- The word `withFetchWord` places is the one the very next step runs, from any state (the model's own, standing for the
load; log 7; canonical memory is log 15). -/
def Obligations.FetchWordRunsNext : Prop :=
  ∀ (s : State) (w : Nat) (i : Instr), s.mem.wf = true → decode (BitVec.ofNat 16 w) = .ok i →
    decodeTableWord 16 w = some i ∧ (s.withFetchWord 16 w).instrNow = some i ∧
      ∃ t, exec i (s.withFetchWord 16 w) = .next t ∧
        step (s.withFetchWord 16 w) = .next (t.whileRunning finishCycle)

/-! ## Invariants and whole-machine rules -/

/-- The invariant holds at reset, for every font and every admissible `TICK_INTERVAL` (R41, R203, R220). -/
def Obligations.InvariantAtReset : Prop :=
  State.reset.Inv ∧
    ∀ (font : List Byte) (tick : Nat), Config.minTickInterval ≤ tick → (State.resetWith font tick).Inv

/-- Every step keeps the invariant, from every state that meets it (R25 to R36, R97, R98, R103, R193, R203, R204). -/
def Obligations.InvariantKept : Prop :=
  ∀ s t : State, s.Inv → step s = .next t → t.Inv

/-- The stack pointer never exceeds 16, a push at 16 and a pop at 0 are fatal, and neither changes the stack (R28). -/
def Obligations.StackStaysBounded : Prop :=
  (∀ s t : State, s.sp ≤ 16 → step s = .next t → t.sp ≤ 16) ∧
  (∀ (a : Addr) (s : State), s.sp = 16 → ∃ t opcode, exec (.call a) s = .next t ∧
    t.mode = .stopped (.fault (.stackOverflow s.pc opcode .call 16)) ∧ t.sp = s.sp ∧ t.stack = s.stack) ∧
  (∀ s : State, s.sp = 0 → ∃ t opcode, exec .ret s = .next t ∧
    t.mode = .stopped (.fault (.stackUnderflow s.pc opcode .ret 0)) ∧ t.sp = s.sp ∧ t.stack = s.stack)

/-- Over any run that executes no `Fx15` and no `Fx18`, each timer only falls, and by at most the number of whole intervals
between the last tick before the run and the last clock sample of it (R201; 95_test_vectors.md S8; the ticks are D16). -/
def Obligations.TimersBoundedByClock : Prop :=
  ∀ s t : State, s.Inv → RunNoTimerWrite s t →
    t.DT.toNat ≤ s.DT.toNat ∧ t.ST.toNat ≤ s.ST.toNat ∧
    s.DT.toNat ≤ t.DT.toNat + (t.env.lastSample - s.lastTick) / s.env.tickInterval ∧
    s.ST.toNat ≤ t.ST.toNat + (t.env.lastSample - s.lastTick) / s.env.tickInterval

/-- An instruction changes no general register but those R22 names as its result, and `VF` where R23 names it as a writer of
the flag. -/
def Obligations.RegistersChangeOnlyWhereNamed : Prop :=
  ∀ (i : Instr) (s t : State) (r : RegIdx), exec i s = .next t → t.reg r ≠ s.reg r →
    i.dest r = true ∨ (r = vf ∧ i.writesFlag = true)

/-- "Every flag value written is exactly 0 or 1" (R23, R103): after a flag-writing instruction that did not fault. -/
def Obligations.FlagsAreZeroOrOne : Prop :=
  ∀ (i : Instr) (s t : State), i.writesFlag = true → s.mode = .running → exec i s = .next t →
    (∀ o, t.mode ≠ .stopped o) → t.reg vf = 0 ∨ t.reg vf = 1

/-- Which instructions write which state: memory only `Fx33` and `Fx55`, the framebuffer and `dirty` only `00E0` and `Dxyn`,
the stack only `2nnn` and `00EE`, `I` only `Annn`, `Fx1E` and `Fx29`, the timers only `Fx15` and `Fx18`; none writes the
latch, `halt` or `last_tick` (R24, R27, R29 to R34, R52). -/
def Obligations.OnlyNamedInstructionsWrite : Prop :=
  ∀ (i : Instr) (s t : State), exec i s = .next t →
    (¬ i.storesMemory → t.mem = s.mem) ∧ (¬ i.writesFb → t.fb = s.fb ∧ t.dirty = s.dirty) ∧
    (¬ i.usesStack → t.stack = s.stack ∧ t.sp = s.sp) ∧ (¬ i.writesIndex → t.I = s.I) ∧
    (¬ i.writesDT → t.DT = s.DT) ∧ (¬ i.writesST → t.ST = s.ST) ∧
    t.keys = s.keys ∧ t.halt = s.halt ∧ t.lastTick = s.lastTick

/-- The halt flag is "set by a Quit signal observed by poll or by wait" and by nothing else, and "Nothing clears it": a pending
Quit stays pending (R34). That a Quit sets it is stated by `PollRebuildsLatch` and `WaitStepCompletesKeyWait`. -/
def Obligations.HaltNeverCleared : Prop :=
  (∀ s t : State, s.halt = true → step s = .next t → t.halt = true) ∧
  (∀ s t : State, step s = .next t → t.halt = true →
    s.halt = true ∨ s.pollAnswer = .quit ∨ ((∃ x, s.mode = .waitingForKey x) ∧ s.waitAnswer = .quit))

/-- Two memories in canonical form that read alike everywhere are the same data (the model's representation, log 15; what is
read is R38, R57). -/
def Obligations.CanonicalMemoriesEqual : Prop :=
  ∀ m m' : Memory, m.wf = true → m'.wf = true → (∀ a, m.read a = m'.read a) → m = m'

/-- No instruction reads `ST` (R29): whatever `ST` holds, everything else comes out the same. -/
def Obligations.SoundTimerUnobservable : Prop :=
  ∀ (i : Instr) (s : State) (v : Byte),
    ∃ t t', exec i s = .next t ∧ exec i { s with ST := v } = .next t' ∧ { t' with ST := t.ST } = t

/-- The content of a slot at index `sp` or above "is never observable through an instruction" (R27; D4): two states that
differ only there take steps that differ only there. -/
def Obligations.StaleSlotsUnobservable : Prop :=
  ∀ s t : State, SameButStaleSlots s t →
    (∀ s', step s = .next s' → ∃ t', step t = .next t' ∧ SameButStaleSlots s' t') ∧
    (∀ f, step s = .fault f → step t = .fault f) ∧ (∀ r, step s = .refused r → step t = .refused r)
end

