-- ==== Sys2Proof/Laws/Decode.lean ====
section
/-! SUPPORT. The fields of an assembled word (30_encoding.md R71): each field of each format reads back what was put in,
and a word is put together again from its fields. -/

namespace Sys2Proof

/-! ## Register numbers and addresses -/

@[simp] theorem regOfNibble_nibbleOfReg (x : RegIdx) : regOfNibble (nibbleOfReg x) = x := by
  apply Fin.ext
  simp only [regOfNibble, nibbleOfReg, BitVec.toNat_ofNat]
  exact Nat.mod_eq_of_lt x.isLt

@[simp] theorem nibbleOfReg_regOfNibble (v : Nibble) : nibbleOfReg (regOfNibble v) = v := by
  apply BitVec.eq_of_toNat_eq
  simp only [regOfNibble, nibbleOfReg, BitVec.toNat_ofNat]
  exact Nat.mod_eq_of_lt v.isLt

theorem addrOfNNN_setWidth (nnn : Addr) (h : wfAddr nnn = true) : addrOfNNN (nnn.setWidth 12) = nnn := by
  simp only [wfAddr, decide_eq_true_eq] at h
  simp only [addrOfNNN]
  bv_omega

@[simp] theorem setWidth_addrOfNNN (v : BitVec 12) : (addrOfNNN v).setWidth 12 = v := by
  simp only [addrOfNNN]
  bv_omega

theorem wfAddr_addrOfNNN (v : BitVec 12) : wfAddr (addrOfNNN v) = true := by
  have := v.isLt
  refine decide_eq_true ?_
  rw [addrOfNNN, BitVec.toNat_setWidth, Nat.mod_eq_of_lt (by omega)]
  omega

/-! ## Words as numbers -/

/-- A concatenation as a number: the left part is the more significant (R9). -/
theorem toNat_append_mul {k m : Nat} (a : BitVec k) (b : BitVec m) : (a ++ b).toNat = a.toNat * 2 ^ m + b.toNat := by
  rw [BitVec.toNat_append, ← Nat.shiftLeft_add_eq_or_of_lt b.isLt, Nat.shiftLeft_eq]

/-- A field as a number: `v[hi:lo]` (R9). -/
theorem toNat_field {k : Nat} (w : BitVec k) (lo len : Nat) : (w.extractLsb' lo len).toNat = w.toNat / 2 ^ lo % 2 ^ len := by
  rw [BitVec.extractLsb'_toNat, Nat.shiftRight_eq_div_pow]

/-! ## Fields of the format XYN -/

@[simp] theorem opFamily_wordXYN (f : Nibble) (x y : RegIdx) (n : Nibble) : opFamily (wordXYN f x y n) = f := by
  have := f.isLt; have := (nibbleOfReg x).isLt; have := (nibbleOfReg y).isLt; have := n.isLt
  apply BitVec.eq_of_toNat_eq
  simp only [opFamily, wordXYN, toNat_field, toNat_append_mul]
  omega

@[simp] theorem opX_wordXYN (f : Nibble) (x y : RegIdx) (n : Nibble) : opX (wordXYN f x y n) = nibbleOfReg x := by
  have := f.isLt; have := (nibbleOfReg x).isLt; have := (nibbleOfReg y).isLt; have := n.isLt
  apply BitVec.eq_of_toNat_eq
  simp only [opX, wordXYN, toNat_field, toNat_append_mul]
  omega

@[simp] theorem opY_wordXYN (f : Nibble) (x y : RegIdx) (n : Nibble) : opY (wordXYN f x y n) = nibbleOfReg y := by
  have := f.isLt; have := (nibbleOfReg x).isLt; have := (nibbleOfReg y).isLt; have := n.isLt
  apply BitVec.eq_of_toNat_eq
  simp only [opY, wordXYN, toNat_field, toNat_append_mul]
  omega

@[simp] theorem opN_wordXYN (f : Nibble) (x y : RegIdx) (n : Nibble) : opN (wordXYN f x y n) = n := by
  have := f.isLt; have := (nibbleOfReg x).isLt; have := (nibbleOfReg y).isLt; have := n.isLt
  apply BitVec.eq_of_toNat_eq
  simp only [opN, wordXYN, toNat_field, toNat_append_mul]
  omega

/-! ## Fields of the format XNN -/

@[simp] theorem opFamily_wordXNN (f : Nibble) (x : RegIdx) (nn : Byte) : opFamily (wordXNN f x nn) = f := by
  have := f.isLt; have := (nibbleOfReg x).isLt; have := nn.isLt
  apply BitVec.eq_of_toNat_eq
  simp only [opFamily, wordXNN, toNat_field, toNat_append_mul]
  omega

@[simp] theorem opX_wordXNN (f : Nibble) (x : RegIdx) (nn : Byte) : opX (wordXNN f x nn) = nibbleOfReg x := by
  have := f.isLt; have := (nibbleOfReg x).isLt; have := nn.isLt
  apply BitVec.eq_of_toNat_eq
  simp only [opX, wordXNN, toNat_field, toNat_append_mul]
  omega

@[simp] theorem opNN_wordXNN (f : Nibble) (x : RegIdx) (nn : Byte) : opNN (wordXNN f x nn) = nn := by
  have := f.isLt; have := (nibbleOfReg x).isLt; have := nn.isLt
  apply BitVec.eq_of_toNat_eq
  simp only [opNN, wordXNN, toNat_field, toNat_append_mul]
  omega

/-! ## Fields of the format NNN -/

@[simp] theorem opFamily_wordNNN (f : Nibble) (nnn : Addr) : opFamily (wordNNN f nnn) = f := by
  have := f.isLt; have := (nnn.setWidth 12).isLt
  apply BitVec.eq_of_toNat_eq
  simp only [opFamily, wordNNN, toNat_field, toNat_append_mul]
  omega

@[simp] theorem opNNN_wordNNN (f : Nibble) (nnn : Addr) : opNNN (wordNNN f nnn) = nnn.setWidth 12 := by
  have := f.isLt; have := (nnn.setWidth 12).isLt
  apply BitVec.eq_of_toNat_eq
  simp only [opNNN, wordNNN, toNat_field, toNat_append_mul]
  omega

/-! ## A word from its fields -/

theorem wordXYN_fields (op : Opcode) :
    wordXYN (opFamily op) (regOfNibble (opX op)) (regOfNibble (opY op)) (opN op) = op := by
  have := op.isLt
  apply BitVec.eq_of_toNat_eq
  simp only [wordXYN, nibbleOfReg_regOfNibble, opFamily, opX, opY, opN, toNat_field, toNat_append_mul]
  omega

theorem wordXNN_fields (op : Opcode) : wordXNN (opFamily op) (regOfNibble (opX op)) (opNN op) = op := by
  have := op.isLt
  apply BitVec.eq_of_toNat_eq
  simp only [wordXNN, nibbleOfReg_regOfNibble, opFamily, opX, opNN, toNat_field, toNat_append_mul]
  omega

theorem wordNNN_fields (op : Opcode) : wordNNN (opFamily op) (addrOfNNN (opNNN op)) = op := by
  have := op.isLt
  apply BitVec.eq_of_toNat_eq
  simp only [wordNNN, setWidth_addrOfNNN, opFamily, opNNN, toNat_field, toNat_append_mul]
  omega

/-! ## Families and masks -/

/-- The sixteen families. -/
theorem nibble_cases (f : Nibble) :
    f = 0x0#4 ∨ f = 0x1#4 ∨ f = 0x2#4 ∨ f = 0x3#4 ∨ f = 0x4#4 ∨ f = 0x5#4 ∨ f = 0x6#4 ∨ f = 0x7#4 ∨
    f = 0x8#4 ∨ f = 0x9#4 ∨ f = 0xA#4 ∨ f = 0xB#4 ∨ f = 0xC#4 ∨ f = 0xD#4 ∨ f = 0xE#4 ∨ f = 0xF#4 := by
  have h := f.isLt
  simp only [BitVec.toNat_eq, BitVec.toNat_ofNat]
  omega

/-- A field whose bits a mask keeps reads alike before and after masking. -/
theorem extractLsb'_mask (op m : Opcode) (lo len : Nat) (h : m.extractLsb' lo len = BitVec.allOnes len) :
    (op &&& m).extractLsb' lo len = op.extractLsb' lo len := by
  rw [BitVec.extractLsb'_and, h, BitVec.and_allOnes]

/-- A refusal of the decoder names the opcode (R76). -/
theorem decode_error (op : Opcode) (r : DecodeReject) (h : decode op = .error r) : r = .noSuchInstruction op := by
  rcases nibble_cases (opFamily op) with
    hf | hf | hf | hf | hf | hf | hf | hf | hf | hf | hf | hf | hf | hf | hf | hf <;>
  simp only [decode, hf, BitVec.reduceEq, if_true, if_false, decodeAlu, decodeMisc] at h <;>
  (repeat' split at h) <;> cases h <;> rfl

end Sys2Proof
end

