-- ==== Sys2Proof/Laws/Memory.lean ====
section
/-! SUPPORT. The laws of memory: what a read gives after each operation, that every operation keeps the canonical form, and
that a canonical memory is fixed by what it reads. -/

namespace Sys2Proof.Machine

/-! ## Reads -/

@[simp] theorem read_nil (a : Nat) : Memory.read [] a = unlistedByte a := rfl

theorem read_cons (k : Nat) (v : Byte) (m : Memory) (a : Nat) :
    Memory.read ((k, v) :: m) a = if a = k then v else Memory.read m a := rfl

theorem read_insert (m : Memory) (a : Nat) (v : Byte) (b : Nat) :
    (Memory.insert m a v).read b = if b = a then v else m.read b := by
  induction m with
  | nil => simp [Memory.insert, read_cons]
  | cons e m ih =>
    obtain ⟨k, w⟩ := e
    rw [Memory.insert]
    split_ifs <;> simp only [read_cons, ih] <;> split_ifs <;> simp_all

/-- Below its first address a canonical memory reads as unlisted. -/
theorem read_of_lt (m : Memory) (lo b : Nat) (h : m.wfFrom lo = true) (hb : b < lo) : m.read b = unlistedByte b := by
  induction m generalizing lo with
  | nil => rfl
  | cons e m ih =>
    obtain ⟨k, w⟩ := e
    simp only [Memory.wfFrom, Bool.and_eq_true, decide_eq_true_eq] at h
    rw [read_cons, if_neg (by omega), ih (k + 1) h.2 (by omega)]

theorem read_erase (m : Memory) (lo a b : Nat) (h : m.wfFrom lo = true) :
    (Memory.erase m a).read b = if b = a then unlistedByte b else m.read b := by
  induction m generalizing lo with
  | nil => simp [Memory.erase]
  | cons e m ih =>
    obtain ⟨k, w⟩ := e
    simp only [Memory.wfFrom, Bool.and_eq_true, decide_eq_true_eq] at h
    rw [Memory.erase]
    split_ifs with hk hb hb
    · rw [read_of_lt m (k + 1) b h.2 (by omega)]
    · rw [read_cons, if_neg (by omega)]
    · rw [read_cons, if_neg (by omega), ih (k + 1) h.2, if_pos hb]
    · rw [read_cons, read_cons, ih (k + 1) h.2, if_neg hb]

/-- A read after a write: the byte written there, every other byte as before (R57). -/
theorem read_write (m : Memory) (h : m.wf = true) (a : Nat) (v : Byte) (b : Nat) (ha : a < Config.memSize) :
    (m.write a v).read b = if b = a then v else m.read b := by
  rw [Memory.write, if_pos ha]
  split_ifs with hv hb hb
  · rw [read_erase m 0 a b h, if_pos hb, hv, hb]
  · rw [read_erase m 0 a b h, if_neg hb]
  · rw [read_insert, if_pos hb]
  · rw [read_insert, if_neg hb]

/-! ## The canonical form -/

theorem wfFrom_mono (m : Memory) (lo lo' : Nat) (h : m.wfFrom lo' = true) (hl : lo ≤ lo') : m.wfFrom lo = true := by
  cases m with
  | nil => rfl
  | cons e m =>
    obtain ⟨k, w⟩ := e
    simp only [Memory.wfFrom, Bool.and_eq_true, decide_eq_true_eq] at h ⊢
    exact ⟨⟨⟨by omega, h.1.1.2⟩, h.1.2⟩, h.2⟩

theorem wfFrom_insert (m : Memory) (lo a : Nat) (v : Byte) (h : m.wfFrom lo = true) (hl : lo ≤ a)
    (ha : a < Config.memSize) (hv : v ≠ unlistedByte a) : (m.insert a v).wfFrom lo = true := by
  induction m generalizing lo with
  | nil => simp [Memory.insert, Memory.wfFrom, hl, ha, hv]
  | cons e m ih =>
    obtain ⟨k, w⟩ := e
    simp only [Memory.wfFrom, Bool.and_eq_true, decide_eq_true_eq] at h
    rw [Memory.insert]
    split_ifs with h1 h2
    · simp only [Memory.wfFrom, Bool.and_eq_true, decide_eq_true_eq]
      exact ⟨⟨⟨hl, ha⟩, hv⟩, ⟨⟨by omega, h.1.1.2⟩, h.1.2⟩, h.2⟩
    · subst h2
      simp only [Memory.wfFrom, Bool.and_eq_true, decide_eq_true_eq]
      exact ⟨⟨⟨hl, ha⟩, hv⟩, h.2⟩
    · simp only [Memory.wfFrom, Bool.and_eq_true, decide_eq_true_eq]
      exact ⟨h.1, ih (k + 1) h.2 (by omega)⟩

theorem wfFrom_erase (m : Memory) (lo a : Nat) (h : m.wfFrom lo = true) : (m.erase a).wfFrom lo = true := by
  induction m generalizing lo with
  | nil => rfl
  | cons e m ih =>
    obtain ⟨k, w⟩ := e
    simp only [Memory.wfFrom, Bool.and_eq_true, decide_eq_true_eq] at h
    rw [Memory.erase]
    split_ifs with h1
    · exact wfFrom_mono m lo (k + 1) h.2 (by omega)
    · simp only [Memory.wfFrom, Bool.and_eq_true, decide_eq_true_eq]
      exact ⟨h.1, ih (k + 1) h.2⟩

/-- A write keeps the canonical form. -/
theorem write_wf (m : Memory) (a : Nat) (v : Byte) (h : m.wf = true) : (m.write a v).wf = true := by
  rw [Memory.write]
  split_ifs with ha hv
  · exact wfFrom_erase m 0 a h
  · exact wfFrom_insert m 0 a v h (Nat.zero_le a) ha hv
  · exact h

/-- Writing a list of bytes keeps the canonical form. -/
theorem writeBytes_wf (bs : List Byte) (m : Memory) (a : Nat) (h : m.wf = true) : (m.writeBytes a bs).wf = true := by
  induction bs generalizing m a with
  | nil => exact h
  | cons b bs ih => exact ih (m.write a b) (a + 1) (write_wf m a b h)

/-- A read after writing a list of bytes: the `k`-th byte at `a + k`, every other byte as before. -/
theorem read_writeBytes (bs : List Byte) (m : Memory) (a b : Nat) (h : m.wf = true)
    (ha : a + bs.length ≤ Config.memSize) :
    (m.writeBytes a bs).read b = if a ≤ b ∧ b < a + bs.length then bs.getD (b - a) 0 else m.read b := by
  induction bs generalizing m a with
  | nil =>
    rw [if_neg (by simp), Memory.writeBytes]
  | cons v bs ih =>
    simp only [List.length_cons] at ha
    rw [Memory.writeBytes, ih (m.write a v) (a + 1) (write_wf m a v h) (by omega),
      read_write m h a v b (by omega)]
    by_cases h1 : b = a
    · subst h1
      rw [if_neg (by omega), if_pos rfl, if_pos (by simp)]
      simp
    · rw [if_neg h1]
      by_cases h2 : a + 1 ≤ b ∧ b < a + 1 + bs.length
      · rw [if_pos h2, if_pos (by simp only [List.length_cons]; omega)]
        obtain ⟨d, hd⟩ : ∃ d, b - a = d + 1 := ⟨b - a - 1, by omega⟩
        rw [hd, show b - (a + 1) = d by omega, List.getD_cons_succ]
      · rw [if_neg h2, if_neg (by simp only [List.length_cons]; omega)]

/-- The reset memory has the canonical form. -/
theorem reset_mem_wf : State.reset.mem.wf = true := rfl

end Sys2Proof.Machine
end

