-- ==== Sys2Proof/Laws/State.lean ====
section
/-! SUPPORT. One lemma for each field of `State` and each named update, true by `rfl`: what the update leaves in the
field. -/

namespace Sys2Proof.Machine

/-! ## `setReg` -/

@[simp] theorem setReg_mem (s : State) (x : RegIdx) (v : Byte) : (s.setReg x v).mem = s.mem := rfl
@[simp] theorem setReg_V (s : State) (x : RegIdx) (v : Byte) : (s.setReg x v).V = s.V.set x.val v := rfl
@[simp] theorem setReg_I (s : State) (x : RegIdx) (v : Byte) : (s.setReg x v).I = s.I := rfl
@[simp] theorem setReg_pc (s : State) (x : RegIdx) (v : Byte) : (s.setReg x v).pc = s.pc := rfl
@[simp] theorem setReg_stack (s : State) (x : RegIdx) (v : Byte) : (s.setReg x v).stack = s.stack := rfl
@[simp] theorem setReg_sp (s : State) (x : RegIdx) (v : Byte) : (s.setReg x v).sp = s.sp := rfl
@[simp] theorem setReg_DT (s : State) (x : RegIdx) (v : Byte) : (s.setReg x v).DT = s.DT := rfl
@[simp] theorem setReg_ST (s : State) (x : RegIdx) (v : Byte) : (s.setReg x v).ST = s.ST := rfl
@[simp] theorem setReg_lastTick (s : State) (x : RegIdx) (v : Byte) : (s.setReg x v).lastTick = s.lastTick := rfl
@[simp] theorem setReg_fb (s : State) (x : RegIdx) (v : Byte) : (s.setReg x v).fb = s.fb := rfl
@[simp] theorem setReg_dirty (s : State) (x : RegIdx) (v : Byte) : (s.setReg x v).dirty = s.dirty := rfl
@[simp] theorem setReg_keys (s : State) (x : RegIdx) (v : Byte) : (s.setReg x v).keys = s.keys := rfl
@[simp] theorem setReg_halt (s : State) (x : RegIdx) (v : Byte) : (s.setReg x v).halt = s.halt := rfl
@[simp] theorem setReg_mode (s : State) (x : RegIdx) (v : Byte) : (s.setReg x v).mode = s.mode := rfl
@[simp] theorem setReg_exclusive (s : State) (x : RegIdx) (v : Byte) : (s.setReg x v).exclusive = s.exclusive := rfl
@[simp] theorem setReg_env (s : State) (x : RegIdx) (v : Byte) : (s.setReg x v).env = s.env := rfl
@[simp] theorem setReg_log (s : State) (x : RegIdx) (v : Byte) : (s.setReg x v).log = s.log := rfl

/-! ## `setSlot` -/

@[simp] theorem setSlot_mem (s : State) (k : Nat) (v : Addr) : (s.setSlot k v).mem = s.mem := rfl
@[simp] theorem setSlot_V (s : State) (k : Nat) (v : Addr) : (s.setSlot k v).V = s.V := rfl
@[simp] theorem setSlot_I (s : State) (k : Nat) (v : Addr) : (s.setSlot k v).I = s.I := rfl
@[simp] theorem setSlot_pc (s : State) (k : Nat) (v : Addr) : (s.setSlot k v).pc = s.pc := rfl
@[simp] theorem setSlot_stack (s : State) (k : Nat) (v : Addr) : (s.setSlot k v).stack = s.stack.setIfInBounds k v := rfl
@[simp] theorem setSlot_sp (s : State) (k : Nat) (v : Addr) : (s.setSlot k v).sp = s.sp := rfl
@[simp] theorem setSlot_DT (s : State) (k : Nat) (v : Addr) : (s.setSlot k v).DT = s.DT := rfl
@[simp] theorem setSlot_ST (s : State) (k : Nat) (v : Addr) : (s.setSlot k v).ST = s.ST := rfl
@[simp] theorem setSlot_lastTick (s : State) (k : Nat) (v : Addr) : (s.setSlot k v).lastTick = s.lastTick := rfl
@[simp] theorem setSlot_fb (s : State) (k : Nat) (v : Addr) : (s.setSlot k v).fb = s.fb := rfl
@[simp] theorem setSlot_dirty (s : State) (k : Nat) (v : Addr) : (s.setSlot k v).dirty = s.dirty := rfl
@[simp] theorem setSlot_keys (s : State) (k : Nat) (v : Addr) : (s.setSlot k v).keys = s.keys := rfl
@[simp] theorem setSlot_halt (s : State) (k : Nat) (v : Addr) : (s.setSlot k v).halt = s.halt := rfl
@[simp] theorem setSlot_mode (s : State) (k : Nat) (v : Addr) : (s.setSlot k v).mode = s.mode := rfl
@[simp] theorem setSlot_exclusive (s : State) (k : Nat) (v : Addr) : (s.setSlot k v).exclusive = s.exclusive := rfl
@[simp] theorem setSlot_env (s : State) (k : Nat) (v : Addr) : (s.setSlot k v).env = s.env := rfl
@[simp] theorem setSlot_log (s : State) (k : Nat) (v : Addr) : (s.setSlot k v).log = s.log := rfl

/-! ## `push` -/

@[simp] theorem push_mem (s : State) (v : Addr) : (s.push v).mem = s.mem := rfl
@[simp] theorem push_V (s : State) (v : Addr) : (s.push v).V = s.V := rfl
@[simp] theorem push_I (s : State) (v : Addr) : (s.push v).I = s.I := rfl
@[simp] theorem push_pc (s : State) (v : Addr) : (s.push v).pc = s.pc := rfl
@[simp] theorem push_stack (s : State) (v : Addr) : (s.push v).stack = s.stack.setIfInBounds s.sp v := rfl
@[simp] theorem push_sp (s : State) (v : Addr) : (s.push v).sp = s.sp + 1 := rfl
@[simp] theorem push_DT (s : State) (v : Addr) : (s.push v).DT = s.DT := rfl
@[simp] theorem push_ST (s : State) (v : Addr) : (s.push v).ST = s.ST := rfl
@[simp] theorem push_lastTick (s : State) (v : Addr) : (s.push v).lastTick = s.lastTick := rfl
@[simp] theorem push_fb (s : State) (v : Addr) : (s.push v).fb = s.fb := rfl
@[simp] theorem push_dirty (s : State) (v : Addr) : (s.push v).dirty = s.dirty := rfl
@[simp] theorem push_keys (s : State) (v : Addr) : (s.push v).keys = s.keys := rfl
@[simp] theorem push_halt (s : State) (v : Addr) : (s.push v).halt = s.halt := rfl
@[simp] theorem push_mode (s : State) (v : Addr) : (s.push v).mode = s.mode := rfl
@[simp] theorem push_exclusive (s : State) (v : Addr) : (s.push v).exclusive = s.exclusive := rfl
@[simp] theorem push_env (s : State) (v : Addr) : (s.push v).env = s.env := rfl
@[simp] theorem push_log (s : State) (v : Addr) : (s.push v).log = s.log := rfl

/-! ## `pop` -/

@[simp] theorem pop_mem (s : State) : (s.pop).mem = s.mem := rfl
@[simp] theorem pop_V (s : State) : (s.pop).V = s.V := rfl
@[simp] theorem pop_I (s : State) : (s.pop).I = s.I := rfl
@[simp] theorem pop_pc (s : State) : (s.pop).pc = s.pc := rfl
@[simp] theorem pop_stack (s : State) : (s.pop).stack = s.stack := rfl
@[simp] theorem pop_sp (s : State) : (s.pop).sp = s.sp - 1 := rfl
@[simp] theorem pop_DT (s : State) : (s.pop).DT = s.DT := rfl
@[simp] theorem pop_ST (s : State) : (s.pop).ST = s.ST := rfl
@[simp] theorem pop_lastTick (s : State) : (s.pop).lastTick = s.lastTick := rfl
@[simp] theorem pop_fb (s : State) : (s.pop).fb = s.fb := rfl
@[simp] theorem pop_dirty (s : State) : (s.pop).dirty = s.dirty := rfl
@[simp] theorem pop_keys (s : State) : (s.pop).keys = s.keys := rfl
@[simp] theorem pop_halt (s : State) : (s.pop).halt = s.halt := rfl
@[simp] theorem pop_mode (s : State) : (s.pop).mode = s.mode := rfl
@[simp] theorem pop_exclusive (s : State) : (s.pop).exclusive = s.exclusive := rfl
@[simp] theorem pop_env (s : State) : (s.pop).env = s.env := rfl
@[simp] theorem pop_log (s : State) : (s.pop).log = s.log := rfl

/-! ## `setResultAndFlag` -/

@[simp] theorem setResultAndFlag_mem (s : State) (x : RegIdx) (v : Byte) (c : Bool) : (s.setResultAndFlag x v c).mem = s.mem := rfl
@[simp] theorem setResultAndFlag_V (s : State) (x : RegIdx) (v : Byte) (c : Bool) : (s.setResultAndFlag x v c).V = ((s.setReg x v).setReg vf (flagByte c)).V := rfl
@[simp] theorem setResultAndFlag_I (s : State) (x : RegIdx) (v : Byte) (c : Bool) : (s.setResultAndFlag x v c).I = s.I := rfl
@[simp] theorem setResultAndFlag_pc (s : State) (x : RegIdx) (v : Byte) (c : Bool) : (s.setResultAndFlag x v c).pc = s.pc := rfl
@[simp] theorem setResultAndFlag_stack (s : State) (x : RegIdx) (v : Byte) (c : Bool) : (s.setResultAndFlag x v c).stack = s.stack := rfl
@[simp] theorem setResultAndFlag_sp (s : State) (x : RegIdx) (v : Byte) (c : Bool) : (s.setResultAndFlag x v c).sp = s.sp := rfl
@[simp] theorem setResultAndFlag_DT (s : State) (x : RegIdx) (v : Byte) (c : Bool) : (s.setResultAndFlag x v c).DT = s.DT := rfl
@[simp] theorem setResultAndFlag_ST (s : State) (x : RegIdx) (v : Byte) (c : Bool) : (s.setResultAndFlag x v c).ST = s.ST := rfl
@[simp] theorem setResultAndFlag_lastTick (s : State) (x : RegIdx) (v : Byte) (c : Bool) : (s.setResultAndFlag x v c).lastTick = s.lastTick := rfl
@[simp] theorem setResultAndFlag_fb (s : State) (x : RegIdx) (v : Byte) (c : Bool) : (s.setResultAndFlag x v c).fb = s.fb := rfl
@[simp] theorem setResultAndFlag_dirty (s : State) (x : RegIdx) (v : Byte) (c : Bool) : (s.setResultAndFlag x v c).dirty = s.dirty := rfl
@[simp] theorem setResultAndFlag_keys (s : State) (x : RegIdx) (v : Byte) (c : Bool) : (s.setResultAndFlag x v c).keys = s.keys := rfl
@[simp] theorem setResultAndFlag_halt (s : State) (x : RegIdx) (v : Byte) (c : Bool) : (s.setResultAndFlag x v c).halt = s.halt := rfl
@[simp] theorem setResultAndFlag_mode (s : State) (x : RegIdx) (v : Byte) (c : Bool) : (s.setResultAndFlag x v c).mode = s.mode := rfl
@[simp] theorem setResultAndFlag_exclusive (s : State) (x : RegIdx) (v : Byte) (c : Bool) : (s.setResultAndFlag x v c).exclusive = s.exclusive := rfl
@[simp] theorem setResultAndFlag_env (s : State) (x : RegIdx) (v : Byte) (c : Bool) : (s.setResultAndFlag x v c).env = s.env := rfl
@[simp] theorem setResultAndFlag_log (s : State) (x : RegIdx) (v : Byte) (c : Bool) : (s.setResultAndFlag x v c).log = s.log := rfl

/-! ## `calledDisplay` -/

@[simp] theorem calledDisplay_mem (s : State) (c : Call) : (s.calledDisplay c).mem = s.mem := rfl
@[simp] theorem calledDisplay_V (s : State) (c : Call) : (s.calledDisplay c).V = s.V := rfl
@[simp] theorem calledDisplay_I (s : State) (c : Call) : (s.calledDisplay c).I = s.I := rfl
@[simp] theorem calledDisplay_pc (s : State) (c : Call) : (s.calledDisplay c).pc = s.pc := rfl
@[simp] theorem calledDisplay_stack (s : State) (c : Call) : (s.calledDisplay c).stack = s.stack := rfl
@[simp] theorem calledDisplay_sp (s : State) (c : Call) : (s.calledDisplay c).sp = s.sp := rfl
@[simp] theorem calledDisplay_DT (s : State) (c : Call) : (s.calledDisplay c).DT = s.DT := rfl
@[simp] theorem calledDisplay_ST (s : State) (c : Call) : (s.calledDisplay c).ST = s.ST := rfl
@[simp] theorem calledDisplay_lastTick (s : State) (c : Call) : (s.calledDisplay c).lastTick = s.lastTick := rfl
@[simp] theorem calledDisplay_fb (s : State) (c : Call) : (s.calledDisplay c).fb = s.fb := rfl
@[simp] theorem calledDisplay_dirty (s : State) (c : Call) : (s.calledDisplay c).dirty = s.dirty := rfl
@[simp] theorem calledDisplay_keys (s : State) (c : Call) : (s.calledDisplay c).keys = s.keys := rfl
@[simp] theorem calledDisplay_halt (s : State) (c : Call) : (s.calledDisplay c).halt = s.halt := rfl
@[simp] theorem calledDisplay_mode (s : State) (c : Call) : (s.calledDisplay c).mode = s.mode := rfl
@[simp] theorem calledDisplay_exclusive (s : State) (c : Call) : (s.calledDisplay c).exclusive = s.exclusive := rfl
@[simp] theorem calledDisplay_env (s : State) (c : Call) : (s.calledDisplay c).env = { s.env with display := s.env.display.rest } := rfl
@[simp] theorem calledDisplay_log (s : State) (c : Call) : (s.calledDisplay c).log = c :: s.log := rfl

/-! ## `calledPoll` -/

@[simp] theorem calledPoll_mem (s : State) : (s.calledPoll).mem = s.mem := rfl
@[simp] theorem calledPoll_V (s : State) : (s.calledPoll).V = s.V := rfl
@[simp] theorem calledPoll_I (s : State) : (s.calledPoll).I = s.I := rfl
@[simp] theorem calledPoll_pc (s : State) : (s.calledPoll).pc = s.pc := rfl
@[simp] theorem calledPoll_stack (s : State) : (s.calledPoll).stack = s.stack := rfl
@[simp] theorem calledPoll_sp (s : State) : (s.calledPoll).sp = s.sp := rfl
@[simp] theorem calledPoll_DT (s : State) : (s.calledPoll).DT = s.DT := rfl
@[simp] theorem calledPoll_ST (s : State) : (s.calledPoll).ST = s.ST := rfl
@[simp] theorem calledPoll_lastTick (s : State) : (s.calledPoll).lastTick = s.lastTick := rfl
@[simp] theorem calledPoll_fb (s : State) : (s.calledPoll).fb = s.fb := rfl
@[simp] theorem calledPoll_dirty (s : State) : (s.calledPoll).dirty = s.dirty := rfl
@[simp] theorem calledPoll_keys (s : State) : (s.calledPoll).keys = s.keys := rfl
@[simp] theorem calledPoll_halt (s : State) : (s.calledPoll).halt = s.halt := rfl
@[simp] theorem calledPoll_mode (s : State) : (s.calledPoll).mode = s.mode := rfl
@[simp] theorem calledPoll_exclusive (s : State) : (s.calledPoll).exclusive = s.exclusive := rfl
@[simp] theorem calledPoll_env (s : State) : (s.calledPoll).env = { s.env with polls := s.env.polls.rest } := rfl
@[simp] theorem calledPoll_log (s : State) : (s.calledPoll).log = .poll :: s.log := rfl

/-! ## `calledWait` -/

@[simp] theorem calledWait_mem (s : State) : (s.calledWait).mem = s.mem := rfl
@[simp] theorem calledWait_V (s : State) : (s.calledWait).V = s.V := rfl
@[simp] theorem calledWait_I (s : State) : (s.calledWait).I = s.I := rfl
@[simp] theorem calledWait_pc (s : State) : (s.calledWait).pc = s.pc := rfl
@[simp] theorem calledWait_stack (s : State) : (s.calledWait).stack = s.stack := rfl
@[simp] theorem calledWait_sp (s : State) : (s.calledWait).sp = s.sp := rfl
@[simp] theorem calledWait_DT (s : State) : (s.calledWait).DT = s.DT := rfl
@[simp] theorem calledWait_ST (s : State) : (s.calledWait).ST = s.ST := rfl
@[simp] theorem calledWait_lastTick (s : State) : (s.calledWait).lastTick = s.lastTick := rfl
@[simp] theorem calledWait_fb (s : State) : (s.calledWait).fb = s.fb := rfl
@[simp] theorem calledWait_dirty (s : State) : (s.calledWait).dirty = s.dirty := rfl
@[simp] theorem calledWait_keys (s : State) : (s.calledWait).keys = s.keys := rfl
@[simp] theorem calledWait_halt (s : State) : (s.calledWait).halt = s.halt := rfl
@[simp] theorem calledWait_mode (s : State) : (s.calledWait).mode = s.mode := rfl
@[simp] theorem calledWait_exclusive (s : State) : (s.calledWait).exclusive = s.exclusive := rfl
@[simp] theorem calledWait_env (s : State) : (s.calledWait).env = { s.env with waits := s.env.waits.rest } := rfl
@[simp] theorem calledWait_log (s : State) : (s.calledWait).log = .wait :: s.log := rfl

/-! ## `keptWaiting` -/

@[simp] theorem keptWaiting_mem (s : State) : (s.keptWaiting).mem = s.mem := rfl
@[simp] theorem keptWaiting_V (s : State) : (s.keptWaiting).V = s.V := rfl
@[simp] theorem keptWaiting_I (s : State) : (s.keptWaiting).I = s.I := rfl
@[simp] theorem keptWaiting_pc (s : State) : (s.keptWaiting).pc = s.pc := rfl
@[simp] theorem keptWaiting_stack (s : State) : (s.keptWaiting).stack = s.stack := rfl
@[simp] theorem keptWaiting_sp (s : State) : (s.keptWaiting).sp = s.sp := rfl
@[simp] theorem keptWaiting_DT (s : State) : (s.keptWaiting).DT = s.DT := rfl
@[simp] theorem keptWaiting_ST (s : State) : (s.keptWaiting).ST = s.ST := rfl
@[simp] theorem keptWaiting_lastTick (s : State) : (s.keptWaiting).lastTick = s.lastTick := rfl
@[simp] theorem keptWaiting_fb (s : State) : (s.keptWaiting).fb = s.fb := rfl
@[simp] theorem keptWaiting_dirty (s : State) : (s.keptWaiting).dirty = s.dirty := rfl
@[simp] theorem keptWaiting_keys (s : State) : (s.keptWaiting).keys = s.keys := rfl
@[simp] theorem keptWaiting_halt (s : State) : (s.keptWaiting).halt = s.halt := rfl
@[simp] theorem keptWaiting_mode (s : State) : (s.keptWaiting).mode = s.mode := rfl
@[simp] theorem keptWaiting_exclusive (s : State) : (s.keptWaiting).exclusive = s.exclusive := rfl
@[simp] theorem keptWaiting_env (s : State) : (s.keptWaiting).env = { s.env with waits := s.env.waits.rest } := rfl
@[simp] theorem keptWaiting_log (s : State) : (s.keptWaiting).log = s.log := rfl

/-! ## `calledRandom` -/

@[simp] theorem calledRandom_mem (s : State) : (s.calledRandom).mem = s.mem := rfl
@[simp] theorem calledRandom_V (s : State) : (s.calledRandom).V = s.V := rfl
@[simp] theorem calledRandom_I (s : State) : (s.calledRandom).I = s.I := rfl
@[simp] theorem calledRandom_pc (s : State) : (s.calledRandom).pc = s.pc := rfl
@[simp] theorem calledRandom_stack (s : State) : (s.calledRandom).stack = s.stack := rfl
@[simp] theorem calledRandom_sp (s : State) : (s.calledRandom).sp = s.sp := rfl
@[simp] theorem calledRandom_DT (s : State) : (s.calledRandom).DT = s.DT := rfl
@[simp] theorem calledRandom_ST (s : State) : (s.calledRandom).ST = s.ST := rfl
@[simp] theorem calledRandom_lastTick (s : State) : (s.calledRandom).lastTick = s.lastTick := rfl
@[simp] theorem calledRandom_fb (s : State) : (s.calledRandom).fb = s.fb := rfl
@[simp] theorem calledRandom_dirty (s : State) : (s.calledRandom).dirty = s.dirty := rfl
@[simp] theorem calledRandom_keys (s : State) : (s.calledRandom).keys = s.keys := rfl
@[simp] theorem calledRandom_halt (s : State) : (s.calledRandom).halt = s.halt := rfl
@[simp] theorem calledRandom_mode (s : State) : (s.calledRandom).mode = s.mode := rfl
@[simp] theorem calledRandom_exclusive (s : State) : (s.calledRandom).exclusive = s.exclusive := rfl
@[simp] theorem calledRandom_env (s : State) : (s.calledRandom).env = { s.env with random := s.env.random.rest } := rfl
@[simp] theorem calledRandom_log (s : State) : (s.calledRandom).log = .randomByte :: s.log := rfl

/-! ## `calledClock` -/

@[simp] theorem calledClock_mem (s : State) : (s.calledClock).mem = s.mem := rfl
@[simp] theorem calledClock_V (s : State) : (s.calledClock).V = s.V := rfl
@[simp] theorem calledClock_I (s : State) : (s.calledClock).I = s.I := rfl
@[simp] theorem calledClock_pc (s : State) : (s.calledClock).pc = s.pc := rfl
@[simp] theorem calledClock_stack (s : State) : (s.calledClock).stack = s.stack := rfl
@[simp] theorem calledClock_sp (s : State) : (s.calledClock).sp = s.sp := rfl
@[simp] theorem calledClock_DT (s : State) : (s.calledClock).DT = s.DT := rfl
@[simp] theorem calledClock_ST (s : State) : (s.calledClock).ST = s.ST := rfl
@[simp] theorem calledClock_lastTick (s : State) : (s.calledClock).lastTick = s.lastTick := rfl
@[simp] theorem calledClock_fb (s : State) : (s.calledClock).fb = s.fb := rfl
@[simp] theorem calledClock_dirty (s : State) : (s.calledClock).dirty = s.dirty := rfl
@[simp] theorem calledClock_keys (s : State) : (s.calledClock).keys = s.keys := rfl
@[simp] theorem calledClock_halt (s : State) : (s.calledClock).halt = s.halt := rfl
@[simp] theorem calledClock_mode (s : State) : (s.calledClock).mode = s.mode := rfl
@[simp] theorem calledClock_exclusive (s : State) : (s.calledClock).exclusive = s.exclusive := rfl
@[simp] theorem calledClock_env (s : State) : (s.calledClock).env = { s.env with clock := s.env.clock.rest, lastSample := s.clockSample } := rfl
@[simp] theorem calledClock_log (s : State) : (s.calledClock).log = .clockSample :: s.log := rfl

/-! ## `advance_next` -/

@[simp] theorem advance_next_mem (s : State) : (advance .next s).mem = s.mem := rfl
@[simp] theorem advance_next_V (s : State) : (advance .next s).V = s.V := rfl
@[simp] theorem advance_next_I (s : State) : (advance .next s).I = s.I := rfl
@[simp] theorem advance_next_pc (s : State) : (advance .next s).pc = s.pc + 2 := rfl
@[simp] theorem advance_next_stack (s : State) : (advance .next s).stack = s.stack := rfl
@[simp] theorem advance_next_sp (s : State) : (advance .next s).sp = s.sp := rfl
@[simp] theorem advance_next_DT (s : State) : (advance .next s).DT = s.DT := rfl
@[simp] theorem advance_next_ST (s : State) : (advance .next s).ST = s.ST := rfl
@[simp] theorem advance_next_lastTick (s : State) : (advance .next s).lastTick = s.lastTick := rfl
@[simp] theorem advance_next_fb (s : State) : (advance .next s).fb = s.fb := rfl
@[simp] theorem advance_next_dirty (s : State) : (advance .next s).dirty = s.dirty := rfl
@[simp] theorem advance_next_keys (s : State) : (advance .next s).keys = s.keys := rfl
@[simp] theorem advance_next_halt (s : State) : (advance .next s).halt = s.halt := rfl
@[simp] theorem advance_next_mode (s : State) : (advance .next s).mode = s.mode := rfl
@[simp] theorem advance_next_exclusive (s : State) : (advance .next s).exclusive = s.exclusive := rfl
@[simp] theorem advance_next_env (s : State) : (advance .next s).env = s.env := rfl
@[simp] theorem advance_next_log (s : State) : (advance .next s).log = s.log := rfl

/-! ## `advance_skip` -/

@[simp] theorem advance_skip_mem (s : State) : (advance .skip s).mem = s.mem := rfl
@[simp] theorem advance_skip_V (s : State) : (advance .skip s).V = s.V := rfl
@[simp] theorem advance_skip_I (s : State) : (advance .skip s).I = s.I := rfl
@[simp] theorem advance_skip_pc (s : State) : (advance .skip s).pc = s.pc + 4 := rfl
@[simp] theorem advance_skip_stack (s : State) : (advance .skip s).stack = s.stack := rfl
@[simp] theorem advance_skip_sp (s : State) : (advance .skip s).sp = s.sp := rfl
@[simp] theorem advance_skip_DT (s : State) : (advance .skip s).DT = s.DT := rfl
@[simp] theorem advance_skip_ST (s : State) : (advance .skip s).ST = s.ST := rfl
@[simp] theorem advance_skip_lastTick (s : State) : (advance .skip s).lastTick = s.lastTick := rfl
@[simp] theorem advance_skip_fb (s : State) : (advance .skip s).fb = s.fb := rfl
@[simp] theorem advance_skip_dirty (s : State) : (advance .skip s).dirty = s.dirty := rfl
@[simp] theorem advance_skip_keys (s : State) : (advance .skip s).keys = s.keys := rfl
@[simp] theorem advance_skip_halt (s : State) : (advance .skip s).halt = s.halt := rfl
@[simp] theorem advance_skip_mode (s : State) : (advance .skip s).mode = s.mode := rfl
@[simp] theorem advance_skip_exclusive (s : State) : (advance .skip s).exclusive = s.exclusive := rfl
@[simp] theorem advance_skip_env (s : State) : (advance .skip s).env = s.env := rfl
@[simp] theorem advance_skip_log (s : State) : (advance .skip s).log = s.log := rfl

/-! ## `advance_jump` -/

@[simp] theorem advance_jump_mem (t : Addr) (s : State) : (advance (.jump t) s).mem = s.mem := rfl
@[simp] theorem advance_jump_V (t : Addr) (s : State) : (advance (.jump t) s).V = s.V := rfl
@[simp] theorem advance_jump_I (t : Addr) (s : State) : (advance (.jump t) s).I = s.I := rfl
@[simp] theorem advance_jump_pc (t : Addr) (s : State) : (advance (.jump t) s).pc = t := rfl
@[simp] theorem advance_jump_stack (t : Addr) (s : State) : (advance (.jump t) s).stack = s.stack := rfl
@[simp] theorem advance_jump_sp (t : Addr) (s : State) : (advance (.jump t) s).sp = s.sp := rfl
@[simp] theorem advance_jump_DT (t : Addr) (s : State) : (advance (.jump t) s).DT = s.DT := rfl
@[simp] theorem advance_jump_ST (t : Addr) (s : State) : (advance (.jump t) s).ST = s.ST := rfl
@[simp] theorem advance_jump_lastTick (t : Addr) (s : State) : (advance (.jump t) s).lastTick = s.lastTick := rfl
@[simp] theorem advance_jump_fb (t : Addr) (s : State) : (advance (.jump t) s).fb = s.fb := rfl
@[simp] theorem advance_jump_dirty (t : Addr) (s : State) : (advance (.jump t) s).dirty = s.dirty := rfl
@[simp] theorem advance_jump_keys (t : Addr) (s : State) : (advance (.jump t) s).keys = s.keys := rfl
@[simp] theorem advance_jump_halt (t : Addr) (s : State) : (advance (.jump t) s).halt = s.halt := rfl
@[simp] theorem advance_jump_mode (t : Addr) (s : State) : (advance (.jump t) s).mode = s.mode := rfl
@[simp] theorem advance_jump_exclusive (t : Addr) (s : State) : (advance (.jump t) s).exclusive = s.exclusive := rfl
@[simp] theorem advance_jump_env (t : Addr) (s : State) : (advance (.jump t) s).env = s.env := rfl
@[simp] theorem advance_jump_log (t : Addr) (s : State) : (advance (.jump t) s).log = s.log := rfl

/-! ## `advance_wait` -/

@[simp] theorem advance_wait_mem (x : RegIdx) (s : State) : (advance (.wait x) s).mem = s.mem := rfl
@[simp] theorem advance_wait_V (x : RegIdx) (s : State) : (advance (.wait x) s).V = s.V := rfl
@[simp] theorem advance_wait_I (x : RegIdx) (s : State) : (advance (.wait x) s).I = s.I := rfl
@[simp] theorem advance_wait_pc (x : RegIdx) (s : State) : (advance (.wait x) s).pc = s.pc := rfl
@[simp] theorem advance_wait_stack (x : RegIdx) (s : State) : (advance (.wait x) s).stack = s.stack := rfl
@[simp] theorem advance_wait_sp (x : RegIdx) (s : State) : (advance (.wait x) s).sp = s.sp := rfl
@[simp] theorem advance_wait_DT (x : RegIdx) (s : State) : (advance (.wait x) s).DT = s.DT := rfl
@[simp] theorem advance_wait_ST (x : RegIdx) (s : State) : (advance (.wait x) s).ST = s.ST := rfl
@[simp] theorem advance_wait_lastTick (x : RegIdx) (s : State) : (advance (.wait x) s).lastTick = s.lastTick := rfl
@[simp] theorem advance_wait_fb (x : RegIdx) (s : State) : (advance (.wait x) s).fb = s.fb := rfl
@[simp] theorem advance_wait_dirty (x : RegIdx) (s : State) : (advance (.wait x) s).dirty = s.dirty := rfl
@[simp] theorem advance_wait_keys (x : RegIdx) (s : State) : (advance (.wait x) s).keys = s.keys := rfl
@[simp] theorem advance_wait_halt (x : RegIdx) (s : State) : (advance (.wait x) s).halt = s.halt := rfl
@[simp] theorem advance_wait_mode (x : RegIdx) (s : State) : (advance (.wait x) s).mode = .waitingForKey x := rfl
@[simp] theorem advance_wait_exclusive (x : RegIdx) (s : State) : (advance (.wait x) s).exclusive = s.exclusive := rfl
@[simp] theorem advance_wait_env (x : RegIdx) (s : State) : (advance (.wait x) s).env = s.env := rfl
@[simp] theorem advance_wait_log (x : RegIdx) (s : State) : (advance (.wait x) s).log = s.log := rfl

/-! ## `readyToFetch` -/

@[simp] theorem readyToFetch_mem (s : State) : (s.readyToFetch).mem = s.mem := rfl
@[simp] theorem readyToFetch_V (s : State) : (s.readyToFetch).V = s.V := rfl
@[simp] theorem readyToFetch_I (s : State) : (s.readyToFetch).I = s.I := rfl
@[simp] theorem readyToFetch_pc (s : State) : (s.readyToFetch).pc = if 0xFFE < s.pc.toNat then 0x200 else s.pc := rfl
@[simp] theorem readyToFetch_stack (s : State) : (s.readyToFetch).stack = s.stack := rfl
@[simp] theorem readyToFetch_sp (s : State) : (s.readyToFetch).sp = s.sp := rfl
@[simp] theorem readyToFetch_DT (s : State) : (s.readyToFetch).DT = s.DT := rfl
@[simp] theorem readyToFetch_ST (s : State) : (s.readyToFetch).ST = s.ST := rfl
@[simp] theorem readyToFetch_lastTick (s : State) : (s.readyToFetch).lastTick = s.lastTick := rfl
@[simp] theorem readyToFetch_fb (s : State) : (s.readyToFetch).fb = s.fb := rfl
@[simp] theorem readyToFetch_dirty (s : State) : (s.readyToFetch).dirty = s.dirty := rfl
@[simp] theorem readyToFetch_keys (s : State) : (s.readyToFetch).keys = s.keys := rfl
@[simp] theorem readyToFetch_halt (s : State) : (s.readyToFetch).halt = false := rfl
@[simp] theorem readyToFetch_mode (s : State) : (s.readyToFetch).mode = .running := rfl
@[simp] theorem readyToFetch_exclusive (s : State) : (s.readyToFetch).exclusive = s.exclusive := rfl
@[simp] theorem readyToFetch_env (s : State) : (s.readyToFetch).env = s.env := rfl
@[simp] theorem readyToFetch_log (s : State) : (s.readyToFetch).log = s.log := rfl

/-! ## `placeAtPc` -/

@[simp] theorem placeAtPc_mem (s : State) (op : Opcode) : (s.placeAtPc op).mem = s.mem.writeBytes s.pc.toNat [op.extractLsb' 8 8, op.extractLsb' 0 8] := rfl
@[simp] theorem placeAtPc_V (s : State) (op : Opcode) : (s.placeAtPc op).V = s.V := rfl
@[simp] theorem placeAtPc_I (s : State) (op : Opcode) : (s.placeAtPc op).I = s.I := rfl
@[simp] theorem placeAtPc_pc (s : State) (op : Opcode) : (s.placeAtPc op).pc = s.pc := rfl
@[simp] theorem placeAtPc_stack (s : State) (op : Opcode) : (s.placeAtPc op).stack = s.stack := rfl
@[simp] theorem placeAtPc_sp (s : State) (op : Opcode) : (s.placeAtPc op).sp = s.sp := rfl
@[simp] theorem placeAtPc_DT (s : State) (op : Opcode) : (s.placeAtPc op).DT = s.DT := rfl
@[simp] theorem placeAtPc_ST (s : State) (op : Opcode) : (s.placeAtPc op).ST = s.ST := rfl
@[simp] theorem placeAtPc_lastTick (s : State) (op : Opcode) : (s.placeAtPc op).lastTick = s.lastTick := rfl
@[simp] theorem placeAtPc_fb (s : State) (op : Opcode) : (s.placeAtPc op).fb = s.fb := rfl
@[simp] theorem placeAtPc_dirty (s : State) (op : Opcode) : (s.placeAtPc op).dirty = s.dirty := rfl
@[simp] theorem placeAtPc_keys (s : State) (op : Opcode) : (s.placeAtPc op).keys = s.keys := rfl
@[simp] theorem placeAtPc_halt (s : State) (op : Opcode) : (s.placeAtPc op).halt = s.halt := rfl
@[simp] theorem placeAtPc_mode (s : State) (op : Opcode) : (s.placeAtPc op).mode = s.mode := rfl
@[simp] theorem placeAtPc_exclusive (s : State) (op : Opcode) : (s.placeAtPc op).exclusive = s.exclusive := rfl
@[simp] theorem placeAtPc_env (s : State) (op : Opcode) : (s.placeAtPc op).env = s.env := rfl
@[simp] theorem placeAtPc_log (s : State) (op : Opcode) : (s.placeAtPc op).log = s.log := rfl

end Sys2Proof.Machine
end

