-- ==== Sys2Proof/Laws/Ops.lean ====
section
/-! SUPPORT. For each shared operation, what it can do, said once. -/

namespace Sys2Proof.Machine

/-! ## Registers and slots -/

theorem reg_setReg (s : State) (x : RegIdx) (v : Byte) (r : RegIdx) :
    (s.setReg x v).reg r = if r = x then v else s.reg r := by
  simp only [State.reg, State.setReg, Vector.getElem_set]
  by_cases h : r = x
  · simp [h]
  · rw [if_neg h, if_neg (fun e => h (Fin.ext e.symm))]

@[simp] theorem reg_setReg_same (s : State) (x : RegIdx) (v : Byte) : (s.setReg x v).reg x = v := by
  rw [reg_setReg, if_pos rfl]

theorem reg_setReg_other (s : State) (x : RegIdx) (v : Byte) (r : RegIdx) (h : r ≠ x) :
    (s.setReg x v).reg r = s.reg r := by rw [reg_setReg, if_neg h]

/-- A register reads alike in states with one register file. -/
theorem reg_congr {s t : State} (h : t.V = s.V) (r : RegIdx) : t.reg r = s.reg r := by
  simp only [State.reg, h]

/-- The result goes to `V[x]` and the flag, 0 or 1, to `VF`, the flag last (R110). -/
theorem reg_setResultAndFlag (s : State) (x : RegIdx) (v : Byte) (c : Bool) (r : RegIdx) :
    (s.setResultAndFlag x v c).reg r = if r = vf then flagByte c else if r = x then v else s.reg r := by
  rw [State.setResultAndFlag, reg_setReg, reg_setReg]

/-- A byte reads alike in states with one memory. -/
theorem byte_congr {s t : State} (h : t.mem = s.mem) (a : Nat) : t.byte a = s.byte a := by
  simp only [State.byte, h]

theorem slot_setSlot (s : State) (k : Nat) (v : Addr) (j : Nat) :
    (s.setSlot k v).slot j = if j = k ∧ k < 16 then v else s.slot j := by
  simp only [State.slot, State.setSlot]
  by_cases h : j < 16
  · rw [dif_pos h, dif_pos h, Vector.getElem_setIfInBounds]
    by_cases hk : k = j
    · subst hk; simp [h]
    · rw [if_neg hk, if_neg (by omega)]
  · rw [dif_neg h, dif_neg h, if_neg (by omega)]

theorem slot_congr {s t : State} (h : t.stack = s.stack) (k : Nat) : t.slot k = s.slot k := by
  simp only [State.slot, h]

/-- A push adds one slot, which holds the value; the slots below keep theirs (R130). -/
theorem slot_push (s : State) (v : Addr) (j : Nat) :
    (s.push v).slot j = if j = s.sp ∧ s.sp < 16 then v else s.slot j :=
  slot_setSlot s s.sp v j

/-! ## The latch (R98) -/

theorem pressed_latchNone (s : State) (k : KeyCode) : State.pressed { s with keys := latchNone } k = false := by
  simp [State.pressed, latchNone]

theorem pressed_latchKey (s : State) (j k : KeyCode) :
    State.pressed { s with keys := latchKey j } k = decide (k = j) := by
  simp only [State.pressed, latchKey, latchNone, Vector.getElem_set, Vector.getElem_replicate]
  by_cases h : k = j
  · simp [h]
  · rw [if_neg (fun e => h (Fin.ext e.symm))]
    simp [h]

/-! ## Register blocks (R154, R155) -/

theorem getElem_loadRegs (m : Memory) (base : Nat) (V : Vector Byte 16) (count r : Nat) (h : r < 16) :
    (loadRegs m base V count)[r] = if r < count then m.read (base + r) else V[r] := by
  induction count with
  | zero => simp [loadRegs]
  | succ k ih =>
    rw [loadRegs, Vector.getElem_setIfInBounds]
    by_cases hk : k = r
    · subst hk; simp
    · rw [if_neg hk, ih]
      by_cases h1 : r < k
      · rw [if_pos h1, if_pos (by omega)]
      · rw [if_neg h1, if_neg (by omega)]

theorem length_regsUpTo (s : State) (x : RegIdx) : (s.regsUpTo x).length = x.val + 1 := by
  have := x.isLt
  simp only [State.regsUpTo, List.length_take, Vector.length_toList]
  omega

theorem getD_regsUpTo (s : State) (x : RegIdx) (k : Nat) (h : k ≤ x.val) :
    (s.regsUpTo x).getD k 0 = s.reg ⟨k, by have := x.isLt; omega⟩ := by
  have := x.isLt
  have hk : k < (s.regsUpTo x).length := by rw [length_regsUpTo]; omega
  rw [List.getD_eq_getElem _ _ hk]
  simp [State.regsUpTo, State.reg]

/-! ## The bounds check (R54) -/

/-- The check passes when no byte is accessed or the last address is in memory; else the lowest bad address is found. -/
theorem badAddr_spec (s : State) (count : Nat) :
    (s.badAddr count = none ∧ (count = 0 ∨ s.I.toNat + (count - 1) ≤ 0xFFF)) ∨
    (s.badAddr count = some (max s.I.toNat 0x1000) ∧ 0 < count ∧ 0xFFF < s.I.toNat + (count - 1)) := by
  simp only [State.badAddr, State.effAddr]
  by_cases h : 0 < count ∧ 0xFFF < s.I.toNat + (count - 1)
  · exact Or.inr ⟨if_pos h, h⟩
  · exact Or.inl ⟨if_neg h, by omega⟩

theorem guardAccess_ok (i : Instr) (count : Nat) (s : State) (f : State → State)
    (h : count = 0 ∨ s.I.toNat + (count - 1) ≤ 0xFFF) : guardAccess i count s f = f s := by
  rcases badAddr_spec s count with ⟨hb, _⟩ | ⟨_, h1, h2⟩
  · rw [guardAccess, hb]
  · omega

theorem guardAccess_bad (i : Instr) (count : Nat) (s : State) (f : State → State)
    (h0 : 0 < count) (h : 0xFFF < s.I.toNat + (count - 1)) :
    guardAccess i count s f = raise (.memoryOutOfBounds s.pc (encode i) (max s.I.toNat 0x1000)) s := by
  rcases badAddr_spec s count with ⟨_, hb⟩ | ⟨hb, _⟩
  · omega
  · rw [guardAccess, hb]

/-! ## Flags (R23) -/

theorem flagByte_zero_or_one (c : Bool) : flagByte c = 0 ∨ flagByte c = 1 := by
  cases c
  · exact Or.inl rfl
  · exact Or.inr rfl

/-! ## The end of a run (R193) -/

theorem endRun_held (o : RunOutcome) (s : State) (h : s.exclusive = true) :
    endRun o s =
      { s.calledDisplay .leaveExclusive with
        exclusive := false, mode := .stopped (outcomeAfterLeave o s.displayAnswer) } := by
  rw [endRun, if_pos h]

theorem endRun_free (o : RunOutcome) (s : State) (h : s.exclusive = false) :
    endRun o s = { s with mode := .stopped o } := by
  rw [endRun, if_neg (by simp [h])]

/-- Ending a run stops the core with the display released, whatever `leave_exclusive_mode` answers. -/
theorem endRun_stops (o : RunOutcome) (s : State) :
    (∃ o', (endRun o s).mode = .stopped o') ∧ (endRun o s).exclusive = false := by
  cases h : s.exclusive
  · rw [endRun_free o s h]; exact ⟨⟨o, rfl⟩, h⟩
  · rw [endRun_held o s h]; exact ⟨⟨_, rfl⟩, rfl⟩

/-- Ending a run changes nothing but `mode`, `exclusive`, and the display call that releases the display. -/
theorem endRun_frame (o : RunOutcome) (s : State) :
    { endRun o s with
      mode := s.mode, exclusive := s.exclusive, log := s.log,
      env := { (endRun o s).env with display := s.env.display } } = s := by
  cases h : s.exclusive
  · rw [endRun_free o s h, ← h]
  · rw [endRun_held o s h, ← h]; rfl

/-- A fault is precise (R191). -/
theorem raise_faultsWith (r : FaultRecord) (s : State) : FaultsWith s (raise r s) r := by
  cases h : s.exclusive
  · rw [raise, endRun_free _ s h]
    exact ⟨rfl, h, fun _ => rfl, fun h' => absurd (h.symm.trans h') (by simp)⟩
  · rw [raise, endRun_held _ s h]
    refine ⟨rfl, rfl, fun h' => absurd (h.symm.trans h') (by simp), fun _ => ⟨rfl, ?_⟩⟩
    rw [← h]; rfl

/-! ## Sequencing -/

theorem whileRunning_running (s : State) (f : State → State) (h : s.mode = .running) : s.whileRunning f = f s := by
  rw [State.whileRunning, h]

theorem whileRunning_waiting (s : State) (f : State → State) (x : RegIdx) (h : s.mode = .waitingForKey x) :
    s.whileRunning f = s := by
  rw [State.whileRunning, h]

theorem whileRunning_stopped (s : State) (f : State → State) (o : RunOutcome) (h : s.mode = .stopped o) :
    s.whileRunning f = s := by
  rw [State.whileRunning, h]

/-! ## Fetch and decode (R53, R92, R93) -/

theorem fetchInstr_spec (s : State) :
    (0xFFE < s.pc.toNat ∧ fetchInstr s = .error (.pcOutOfBounds s.pc)) ∨
    (s.pc.toNat ≤ 0xFFE ∧ ∃ r, decode s.opcodeAtPc = .error r ∧ fetchInstr s = .error (.decodeError s.pc s.opcodeAtPc)) ∨
    (s.pc.toNat ≤ 0xFFE ∧ ∃ i, decode s.opcodeAtPc = .ok i ∧ fetchInstr s = .ok i) := by
  simp only [fetchInstr]
  split_ifs with h
  · exact Or.inl ⟨h, rfl⟩
  · cases hd : decode s.opcodeAtPc with
    | error r => exact Or.inr (Or.inl ⟨by omega, r, rfl, rfl⟩)
    | ok i => exact Or.inr (Or.inr ⟨by omega, i, rfl, rfl⟩)

/-! ## Render, poll, timer step (R97 to R99) -/

theorem render_spec (s : State) :
    (s.dirty = false ∧ render s = s) ∨
    (s.dirty = true ∧ s.displayAnswer = .ok ∧ render s = { s.calledDisplay (.render s.fb) with dirty := false }) ∨
    (s.dirty = true ∧ ∃ e, s.displayAnswer = .error e ∧
      render s = raise (.collaboratorError .render e) (s.calledDisplay (.render s.fb))) := by
  simp only [render]
  split_ifs with h
  · cases ha : s.displayAnswer with
    | ok => exact Or.inr (Or.inl ⟨h, rfl, rfl⟩)
    | error e => exact Or.inr (Or.inr ⟨h, e, rfl, rfl⟩)
  · exact Or.inl ⟨by simpa using h, rfl⟩

theorem poll_spec (s : State) :
    (s.pollAnswer = .noEvent ∧ poll s = { s.calledPoll with keys := latchNone }) ∨
    (∃ j, s.pollAnswer = .key j ∧ poll s = { s.calledPoll with keys := latchKey j }) ∨
    (s.pollAnswer = .quit ∧ poll s = { s.calledPoll with keys := latchNone, halt := true }) ∨
    (∃ e, s.pollAnswer = .error e ∧ poll s = raise (.collaboratorError .poll e) s.calledPoll) := by
  simp only [poll]
  cases h : s.pollAnswer with
  | noEvent => exact Or.inl ⟨rfl, rfl⟩
  | key j => exact Or.inr (Or.inl ⟨j, rfl, rfl⟩)
  | quit => exact Or.inr (Or.inr (Or.inl ⟨rfl, rfl⟩))
  | error e => exact Or.inr (Or.inr (Or.inr ⟨e, rfl, rfl⟩))

theorem countDown_toNat (v : Byte) : (countDown v).toNat = v.toNat - 1 := by
  simp only [countDown]
  split_ifs with h
  · subst h; rfl
  · have : v.toNat ≠ 0 := fun h0 => h (BitVec.eq_of_toNat_eq h0)
    have := v.isLt
    bv_omega

theorem timerStep_spec (s : State) :
    (s.lastTick + s.env.tickInterval ≤ s.clockSample ∧
      timerStep s =
        { s.calledClock with DT := countDown s.DT, ST := countDown s.ST, lastTick := s.clockSample }) ∨
    (s.clockSample < s.lastTick + s.env.tickInterval ∧ timerStep s = s.calledClock) := by
  simp only [timerStep, State.ticksAt, decide_eq_true_eq]
  split_ifs with h
  · exact Or.inl ⟨h, rfl⟩
  · exact Or.inr ⟨by omega, rfl⟩

/-! ## Pixels (R31, R171, R172) -/

theorem pixel_clear (px py : Nat) : Framebuffer.clear.pixel px py = false := by
  simp only [Framebuffer.pixel, Framebuffer.clear]
  split_ifs <;> simp

theorem pixel_flip (fb : Framebuffer) (px py qx qy : Nat) (hpx : px < 64) (hpy : py < 32) :
    (fb.flip px py).pixel qx qy = (if qx = px ∧ qy = py then !fb.pixel qx qy else fb.pixel qx qy) := by
  simp only [Framebuffer.flip, Framebuffer.pixel, dif_pos hpy]
  by_cases hy : qy < 32
  · simp only [dif_pos hy, Vector.getElem_set]
    by_cases h1 : py = qy
    · subst h1
      by_cases h2 : qx = px
      · subst h2; simp [hpx]
      · have : (1#64 <<< px).getLsbD qx = false := by
          simp only [BitVec.getLsbD_shiftLeft, BitVec.getLsbD_one]
          rcases Nat.lt_trichotomy qx px with h | h | h
          · simp [h]
          · exact absurd h h2
          · have : qx - px ≠ 0 := by omega
            simp [this]
        simp [this, h2]
    · rw [if_neg h1, if_neg (fun e => h1 e.2.symm)]
  · simp only [dif_neg hy]
    rw [if_neg (fun e => hy (by omega))]

end Sys2Proof.Machine
end

