-- ==== Sys2Proof/Laws/Draw.lean ====
section
/-! SUPPORT. What drawing a sprite does, pixel by pixel (45_display.md R171 to R173): a covered pixel flips, every other
pixel stays, and the collision says that a covered pixel was set. -/

namespace Sys2Proof.Machine

/-- The first `k` columns of `drawRow`. -/
def drawCols (cx cy row : Nat) (b : Byte) (acc : Framebuffer × Bool) (k : Nat) : Framebuffer × Bool :=
  (List.range k).foldl
    (fun acc col =>
      if spriteBit b col then drawDot ((cx + col) % Config.fbWidth) ((cy + row) % Config.fbHeight) acc else acc)
    acc

theorem drawCols_succ (cx cy row : Nat) (b : Byte) (acc : Framebuffer × Bool) (k : Nat) :
    drawCols cx cy row b acc (k + 1) =
      if spriteBit b k then
        drawDot ((cx + k) % Config.fbWidth) ((cy + row) % Config.fbHeight) (drawCols cx cy row b acc k)
      else drawCols cx cy row b acc k := by
  simp only [drawCols, List.range_succ, List.foldl_append, List.foldl_cons, List.foldl_nil]

theorem pixel_drawCols (cx cy row : Nat) (b : Byte) (acc : Framebuffer × Bool) (k px py : Nat) (hk : k ≤ 8) :
    (drawCols cx cy row b acc k).1.pixel px py =
      xor (acc.1.pixel px py)
        (decide (py = (cy + row) % 32 ∧ ∃ col, col < k ∧ spriteBit b col = true ∧ px = (cx + col) % 64)) := by
  induction k with
  | zero => simp [drawCols]
  | succ k ih =>
    have ih := ih (by omega)
    rw [drawCols_succ]
    by_cases hb : spriteBit b k = true
    · rw [if_pos hb, drawDot, pixel_flip _ _ _ _ _ (Nat.mod_lt _ (by decide)) (Nat.mod_lt _ (by decide)), ih]
      by_cases hh : px = (cx + k) % 64 ∧ py = (cy + row) % 32
      · rw [if_pos hh]
        have hfresh : ¬ (py = (cy + row) % 32 ∧ ∃ col, col < k ∧ spriteBit b col = true ∧ px = (cx + col) % 64) := by
          rintro ⟨_, col, hc, _, hp⟩
          omega
        have hnew : py = (cy + row) % 32 ∧ ∃ col, col < k + 1 ∧ spriteBit b col = true ∧ px = (cx + col) % 64 :=
          ⟨hh.2, k, by omega, hb, hh.1⟩
        rw [decide_eq_false hfresh, decide_eq_true hnew]
        simp
      · rw [if_neg hh]
        congr 2
        apply propext
        constructor
        · rintro ⟨h1, col, hc, h2, h3⟩
          exact ⟨h1, col, by omega, h2, h3⟩
        · rintro ⟨h1, col, hc, h2, h3⟩
          have : col ≠ k := fun e => hh ⟨by rw [h3, e], h1⟩
          exact ⟨h1, col, by omega, h2, h3⟩
    · rw [if_neg hb, ih]
      congr 2
      apply propext
      constructor
      · rintro ⟨h1, col, hc, h2, h3⟩
        exact ⟨h1, col, by omega, h2, h3⟩
      · rintro ⟨h1, col, hc, h2, h3⟩
        have : col ≠ k := fun e => hb (e ▸ h2)
        exact ⟨h1, col, by omega, h2, h3⟩

theorem collision_drawCols (cx cy row : Nat) (b : Byte) (acc : Framebuffer × Bool) (k : Nat) (hk : k ≤ 8) :
    (drawCols cx cy row b acc k).2 = true ↔
      acc.2 = true ∨
        ∃ col, col < k ∧ spriteBit b col = true ∧ acc.1.pixel ((cx + col) % 64) ((cy + row) % 32) = true := by
  induction k with
  | zero => simp [drawCols]
  | succ k ih =>
    have ih := ih (by omega)
    rw [drawCols_succ]
    by_cases hb : spriteBit b k = true
    · have hfresh : ¬ ((cy + row) % 32 = (cy + row) % 32 ∧
          ∃ col, col < k ∧ spriteBit b col = true ∧ (cx + k) % 64 = (cx + col) % 64) := by
        rintro ⟨_, col, hc, _, hp⟩
        omega
      rw [if_pos hb, drawDot, Bool.or_eq_true, ih, pixel_drawCols _ _ _ _ _ _ _ _ (by omega),
        decide_eq_false hfresh, Bool.xor_false]
      constructor
      · rintro ((h | ⟨col, hc, h1, h2⟩) | h)
        · exact Or.inl h
        · exact Or.inr ⟨col, by omega, h1, h2⟩
        · exact Or.inr ⟨k, by omega, hb, h⟩
      · rintro (h | ⟨col, hc, h1, h2⟩)
        · exact Or.inl (Or.inl h)
        · by_cases e : col = k
          · subst e; exact Or.inr h2
          · exact Or.inl (Or.inr ⟨col, by omega, h1, h2⟩)
    · rw [if_neg hb, ih]
      constructor
      · rintro (h | ⟨col, hc, h1, h2⟩)
        · exact Or.inl h
        · exact Or.inr ⟨col, by omega, h1, h2⟩
      · rintro (h | ⟨col, hc, h1, h2⟩)
        · exact Or.inl h
        · have : col ≠ k := fun e => hb (e ▸ h1)
          exact Or.inr ⟨col, by omega, h1, h2⟩

theorem drawSprite_succ (m : Memory) (base cx cy n : Nat) (fb : Framebuffer) :
    drawSprite m base cx cy (n + 1) fb =
      drawCols cx cy n (m.read (base + n)) (drawSprite m base cx cy n fb) 8 := by
  simp only [drawSprite, List.range_succ, List.foldl_append, List.foldl_cons, List.foldl_nil]
  rfl

/-- A covered pixel flips and every other pixel stays. -/
theorem pixel_drawSprite (m : Memory) (base cx cy n : Nat) (fb : Framebuffer) (px py : Nat) (hn : n ≤ 32) :
    (drawSprite m base cx cy n fb).1.pixel px py =
      xor (fb.pixel px py) (@decide (SpriteCovers (fun k => m.read (base + k)) cx cy n px py) (Classical.dec _)) := by
  induction n with
  | zero => simp [drawSprite, SpriteCovers]
  | succ n ih =>
    rw [drawSprite_succ, pixel_drawCols _ _ _ _ _ _ _ _ (by omega), ih (by omega), Bool.xor_assoc]
    congr 1
    by_cases h1 : SpriteCovers (fun k => m.read (base + k)) cx cy n px py
    · have h2 : ¬ (py = (cy + n) % 32 ∧
          ∃ col, col < 8 ∧ spriteBit (m.read (base + n)) col = true ∧ px = (cx + col) % 64) := by
        obtain ⟨row, col, hr, hc, hb, hx, hy⟩ := h1
        rintro ⟨hy', _⟩
        omega
      have h3 : SpriteCovers (fun k => m.read (base + k)) cx cy (n + 1) px py := by
        obtain ⟨row, col, hr, hc, hb, hx, hy⟩ := h1
        exact ⟨row, col, by omega, hc, hb, hx, hy⟩
      rw [decide_eq_false h2]
      simp [h1, h3]
    · by_cases h2 : py = (cy + n) % 32 ∧
          ∃ col, col < 8 ∧ spriteBit (m.read (base + n)) col = true ∧ px = (cx + col) % 64
      · have h3 : SpriteCovers (fun k => m.read (base + k)) cx cy (n + 1) px py := by
          obtain ⟨hy, col, hc, hb, hx⟩ := h2
          exact ⟨n, col, by omega, hc, hb, hx, hy⟩
        rw [decide_eq_true h2]
        simp [h1, h3]
      · have h3 : ¬ SpriteCovers (fun k => m.read (base + k)) cx cy (n + 1) px py := by
          rintro ⟨row, col, hr, hc, hb, hx, hy⟩
          by_cases e : row = n
          · subst e; exact h2 ⟨hy, col, hc, hb, hx⟩
          · exact h1 ⟨row, col, by omega, hc, hb, hx, hy⟩
        rw [decide_eq_false h2]
        simp [h1, h3]

/-- The collision: a covered pixel was set before the draw. -/
theorem collision_drawSprite (m : Memory) (base cx cy n : Nat) (fb : Framebuffer) (hn : n ≤ 32) :
    (drawSprite m base cx cy n fb).2 = true ↔
      ∃ px py, SpriteCovers (fun k => m.read (base + k)) cx cy n px py ∧ fb.pixel px py = true := by
  induction n with
  | zero => simp [drawSprite, SpriteCovers]
  | succ n ih =>
    rw [drawSprite_succ, collision_drawCols _ _ _ _ _ _ (by omega), ih (by omega)]
    constructor
    · rintro (⟨px, py, ⟨row, col, hr, hc, hb, hx, hy⟩, hp⟩ | ⟨col, hc, hb, hp⟩)
      · exact ⟨px, py, ⟨row, col, by omega, hc, hb, hx, hy⟩, hp⟩
      · refine ⟨(cx + col) % 64, (cy + n) % 32, ⟨n, col, by omega, hc, hb, rfl, rfl⟩, ?_⟩
        rw [pixel_drawSprite _ _ _ _ _ _ _ _ (by omega)] at hp
        have : ¬ SpriteCovers (fun k => m.read (base + k)) cx cy n ((cx + col) % 64) ((cy + n) % 32) := by
          rintro ⟨row, col', hr, _, _, _, hy⟩
          omega
        simpa [this] using hp
    · rintro ⟨px, py, ⟨row, col, hr, hc, hb, hx, hy⟩, hp⟩
      by_cases e : row = n
      · subst e
        refine Or.inr ⟨col, hc, hb, ?_⟩
        have : ¬ SpriteCovers (fun k => m.read (base + k)) cx cy row ((cx + col) % 64) ((cy + row) % 32) := by
          rintro ⟨row', col', hr', _, _, _, hy'⟩
          omega
        rw [pixel_drawSprite _ _ _ _ _ _ _ _ (by omega), ← hx, ← hy, hp]
        rw [← hx, ← hy] at this
        simp [this]
      · exact Or.inl ⟨px, py, ⟨row, col, by omega, hc, hb, hx, hy⟩, hp⟩

end Sys2Proof.Machine
end

