-- ==== Sys2Proof/Laws/PerInstr.lean ====
section
/-! SUPPORT. Statements made constructor by constructor. `FitsRow`: the encoding of an instruction is selected by the
instruction's own row of the catalogue (30_encoding.md R73), the rows standing in the constructors' order. -/

namespace Sys2Proof.Laws.FitsRow

/-- The row of the catalogue at the constructor's place selects the encoding of the instruction. -/
def Statement (i : Instr) : Prop :=
  ∃ r, opcodeTable[i.ctorIdx]? = some r ∧ r.selects (encode i) = true

/-! ## What a mask keeps of a word -/

theorem mask_keeps (f : Nibble) : f &&& 0xF#4 = f := BitVec.and_allOnes

theorem selects_wordNNN (m : String) (v : Opcode) (f : Nibble) (nnn : Addr) (h : f ++ 0#12 = v) :
    OpcodeRow.selects ⟨m, v, 0xF000#16⟩ (wordNNN f nnn) = true := by
  rw [OpcodeRow.selects, beq_iff_eq, ← h, wordNNN, show 0xF000#16 = 0xF#4 ++ 0#12 from rfl, BitVec.and_append,
    mask_keeps, BitVec.and_zero]

theorem selects_wordXNN (m : String) (v : Opcode) (f : Nibble) (x : RegIdx) (nn : Byte) (h : f ++ 0#4 ++ 0#8 = v) :
    OpcodeRow.selects ⟨m, v, 0xF000#16⟩ (wordXNN f x nn) = true := by
  rw [OpcodeRow.selects, beq_iff_eq, ← h, wordXNN, show 0xF000#16 = 0xF#4 ++ 0#4 ++ 0#8 from rfl, BitVec.and_append,
    BitVec.and_append, mask_keeps, BitVec.and_zero, BitVec.and_zero]

theorem selects_wordX (m : String) (v : Opcode) (f : Nibble) (x : RegIdx) (nn : Byte) (h : f ++ 0#4 ++ nn = v) :
    OpcodeRow.selects ⟨m, v, 0xF0FF#16⟩ (wordXNN f x nn) = true := by
  rw [OpcodeRow.selects, beq_iff_eq, ← h, wordXNN, show 0xF0FF#16 = 0xF#4 ++ 0#4 ++ BitVec.allOnes 8 from rfl,
    BitVec.and_append, BitVec.and_append, mask_keeps, BitVec.and_zero, BitVec.and_allOnes]

theorem selects_wordXYN (m : String) (v : Opcode) (f : Nibble) (x y : RegIdx) (n : Nibble)
    (h : f ++ 0#4 ++ 0#4 ++ 0#4 = v) : OpcodeRow.selects ⟨m, v, 0xF000#16⟩ (wordXYN f x y n) = true := by
  rw [OpcodeRow.selects, beq_iff_eq, ← h, wordXYN, show 0xF000#16 = 0xF#4 ++ 0#4 ++ 0#4 ++ 0#4 from rfl,
    BitVec.and_append, BitVec.and_append, BitVec.and_append, mask_keeps, BitVec.and_zero, BitVec.and_zero,
    BitVec.and_zero]

theorem selects_wordXY0 (m : String) (v : Opcode) (f : Nibble) (x y : RegIdx) (n : Nibble)
    (h : f ++ 0#4 ++ 0#4 ++ n = v) : OpcodeRow.selects ⟨m, v, 0xF00F#16⟩ (wordXYN f x y n) = true := by
  rw [OpcodeRow.selects, beq_iff_eq, ← h, wordXYN, show 0xF00F#16 = 0xF#4 ++ 0#4 ++ 0#4 ++ 0xF#4 from rfl,
    BitVec.and_append, BitVec.and_append, BitVec.and_append, mask_keeps, mask_keeps, BitVec.and_zero, BitVec.and_zero]

/-! ## One lemma for each constructor -/

theorem cls : Statement .cls := ⟨_, rfl, rfl⟩
theorem ret : Statement .ret := ⟨_, rfl, rfl⟩
theorem jp (nnn : Addr) : Statement (.jp nnn) := ⟨_, rfl, selects_wordNNN _ _ _ _ rfl⟩
theorem call (nnn : Addr) : Statement (.call nnn) := ⟨_, rfl, selects_wordNNN _ _ _ _ rfl⟩
theorem seImm (x : RegIdx) (nn : Byte) : Statement (.seImm x nn) := ⟨_, rfl, selects_wordXNN _ _ _ _ _ rfl⟩
theorem sneImm (x : RegIdx) (nn : Byte) : Statement (.sneImm x nn) := ⟨_, rfl, selects_wordXNN _ _ _ _ _ rfl⟩
theorem seReg (x y : RegIdx) : Statement (.seReg x y) := ⟨_, rfl, selects_wordXY0 _ _ _ _ _ _ rfl⟩
theorem ldImm (x : RegIdx) (nn : Byte) : Statement (.ldImm x nn) := ⟨_, rfl, selects_wordXNN _ _ _ _ _ rfl⟩
theorem addImm (x : RegIdx) (nn : Byte) : Statement (.addImm x nn) := ⟨_, rfl, selects_wordXNN _ _ _ _ _ rfl⟩
theorem ldReg (x y : RegIdx) : Statement (.ldReg x y) := ⟨_, rfl, selects_wordXY0 _ _ _ _ _ _ rfl⟩
theorem orReg (x y : RegIdx) : Statement (.orReg x y) := ⟨_, rfl, selects_wordXY0 _ _ _ _ _ _ rfl⟩
theorem andReg (x y : RegIdx) : Statement (.andReg x y) := ⟨_, rfl, selects_wordXY0 _ _ _ _ _ _ rfl⟩
theorem xorReg (x y : RegIdx) : Statement (.xorReg x y) := ⟨_, rfl, selects_wordXY0 _ _ _ _ _ _ rfl⟩
theorem addReg (x y : RegIdx) : Statement (.addReg x y) := ⟨_, rfl, selects_wordXY0 _ _ _ _ _ _ rfl⟩
theorem subReg (x y : RegIdx) : Statement (.subReg x y) := ⟨_, rfl, selects_wordXY0 _ _ _ _ _ _ rfl⟩
theorem shr (x y : RegIdx) : Statement (.shr x y) := ⟨_, rfl, selects_wordXY0 _ _ _ _ _ _ rfl⟩
theorem subn (x y : RegIdx) : Statement (.subn x y) := ⟨_, rfl, selects_wordXY0 _ _ _ _ _ _ rfl⟩
theorem shl (x y : RegIdx) : Statement (.shl x y) := ⟨_, rfl, selects_wordXY0 _ _ _ _ _ _ rfl⟩
theorem sneReg (x y : RegIdx) : Statement (.sneReg x y) := ⟨_, rfl, selects_wordXY0 _ _ _ _ _ _ rfl⟩
theorem ldI (nnn : Addr) : Statement (.ldI nnn) := ⟨_, rfl, selects_wordNNN _ _ _ _ rfl⟩
theorem jpV0 (nnn : Addr) : Statement (.jpV0 nnn) := ⟨_, rfl, selects_wordNNN _ _ _ _ rfl⟩
theorem rnd (x : RegIdx) (nn : Byte) : Statement (.rnd x nn) := ⟨_, rfl, selects_wordXNN _ _ _ _ _ rfl⟩
theorem drw (x y : RegIdx) (n : Nat) : Statement (.drw x y n) := ⟨_, rfl, selects_wordXYN _ _ _ _ _ _ rfl⟩
theorem skp (x : RegIdx) : Statement (.skp x) := ⟨_, rfl, selects_wordX _ _ _ _ _ rfl⟩
theorem sknp (x : RegIdx) : Statement (.sknp x) := ⟨_, rfl, selects_wordX _ _ _ _ _ rfl⟩
theorem ldVxDT (x : RegIdx) : Statement (.ldVxDT x) := ⟨_, rfl, selects_wordX _ _ _ _ _ rfl⟩
theorem ldVxK (x : RegIdx) : Statement (.ldVxK x) := ⟨_, rfl, selects_wordX _ _ _ _ _ rfl⟩
theorem ldDTVx (x : RegIdx) : Statement (.ldDTVx x) := ⟨_, rfl, selects_wordX _ _ _ _ _ rfl⟩
theorem ldSTVx (x : RegIdx) : Statement (.ldSTVx x) := ⟨_, rfl, selects_wordX _ _ _ _ _ rfl⟩
theorem addI (x : RegIdx) : Statement (.addI x) := ⟨_, rfl, selects_wordX _ _ _ _ _ rfl⟩
theorem ldF (x : RegIdx) : Statement (.ldF x) := ⟨_, rfl, selects_wordX _ _ _ _ _ rfl⟩
theorem ldB (x : RegIdx) : Statement (.ldB x) := ⟨_, rfl, selects_wordX _ _ _ _ _ rfl⟩
theorem stRegs (x : RegIdx) : Statement (.stRegs x) := ⟨_, rfl, selects_wordX _ _ _ _ _ rfl⟩
theorem ldRegs (x : RegIdx) : Statement (.ldRegs x) := ⟨_, rfl, selects_wordX _ _ _ _ _ rfl⟩

end Sys2Proof.Laws.FitsRow
end

