-- ==== Sys2Proof/Laws/Step.lean ====
section
/-! SUPPORT. What an instruction and a step can do, said once: every instruction answers a next state, which is either a
fault raised in the state as it was or an effect within a frame; and the four shapes of a step. -/

namespace Sys2Proof.Machine

/-! ## Execute -/

/-- What every effect of an instruction leaves alone: the latch, `halt`, the last tick, the display's mode, and the
environment but for the random bytes; and what it does to the history and to the mode. -/
structure ExecFrame (s t : State) : Prop where
  keys : t.keys = s.keys
  halt : t.halt = s.halt
  lastTick : t.lastTick = s.lastTick
  exclusive : t.exclusive = s.exclusive
  env : { t.env with random := s.env.random } = s.env
  log : t.log = s.log ∨ t.log = .randomByte :: s.log
  mode : t.mode = s.mode ∨ ∃ x, t.mode = .waitingForKey x

theorem execFrame_advance (d : Dispatched) (s t : State) (h : ExecFrame s t) : ExecFrame s (advance d t) := by
  cases d with
  | next => exact ⟨h.keys, h.halt, h.lastTick, h.exclusive, h.env, h.log, h.mode⟩
  | skip => exact ⟨h.keys, h.halt, h.lastTick, h.exclusive, h.env, h.log, h.mode⟩
  | jump a => exact ⟨h.keys, h.halt, h.lastTick, h.exclusive, h.env, h.log, h.mode⟩
  | wait x => exact ⟨h.keys, h.halt, h.lastTick, h.exclusive, h.env, h.log, Or.inr ⟨x, rfl⟩⟩

theorem execFrame_of_eq (s t : State) (hk : t.keys = s.keys) (hh : t.halt = s.halt) (hl : t.lastTick = s.lastTick)
    (hx : t.exclusive = s.exclusive) (he : { t.env with random := s.env.random } = s.env)
    (hg : t.log = s.log ∨ t.log = .randomByte :: s.log) (hm : t.mode = s.mode) : ExecFrame s t :=
  ⟨hk, hh, hl, hx, he, hg, Or.inl hm⟩

theorem guardAccess_cases (i : Instr) (count : Nat) (s : State) (f : State → State) :
    (∃ r, guardAccess i count s f = raise r s) ∨ guardAccess i count s f = f s := by
  rcases badAddr_spec s count with ⟨_, h⟩ | ⟨_, h0, h⟩
  · exact Or.inr (guardAccess_ok i count s f h)
  · exact Or.inl ⟨_, guardAccess_bad i count s f h0 h⟩

/-- Every instruction answers a next state: a fault raised in the state as it was, or an effect within the frame. -/
theorem exec_cases (i : Instr) (s : State) :
    ∃ t, exec i s = .next t ∧ ((∃ r, t = raise r s) ∨ ExecFrame s t) := by
  have guarded : ∀ (j : Instr) (count : Nat) (f : State → State), ExecFrame s (f s) →
      ∃ t, Host.Outcome.next (guardAccess j count s f) = (.next t : Host.Outcome State Fault Refusal) ∧
        ((∃ r, t = raise r s) ∨ ExecFrame s t) := by
    intro j count f hf
    refine ⟨_, rfl, ?_⟩
    rcases guardAccess_cases j count s f with h | h
    · exact Or.inl h
    · rw [h]; exact Or.inr hf
  have key : ∀ (j : Instr) (x : RegIdx) (w : Bool), (∃ r, keyTest j x w s = raise r s) ∨ ExecFrame s (keyTest j x w s) := by
    intro j x w
    rw [keyTest]
    split_ifs with h
    · exact Or.inr (execFrame_advance _ _ _ (execFrame_of_eq _ _ rfl rfl rfl rfl rfl (Or.inl rfl) rfl))
    · exact Or.inl ⟨_, rfl⟩
  cases i with
  | call nnn =>
    simp only [exec, execCall]
    split_ifs with h
    · exact ⟨_, rfl, Or.inl ⟨_, rfl⟩⟩
    · exact ⟨_, rfl, Or.inr (execFrame_advance _ _ _ (execFrame_of_eq _ _ rfl rfl rfl rfl rfl (Or.inl rfl) rfl))⟩
  | ret =>
    simp only [exec, execRet]
    split_ifs with h
    · exact ⟨_, rfl, Or.inl ⟨_, rfl⟩⟩
    · exact ⟨_, rfl, Or.inr (execFrame_advance _ _ _ (execFrame_of_eq _ _ rfl rfl rfl rfl rfl (Or.inl rfl) rfl))⟩
  | skp x => exact ⟨_, rfl, key (.skp x) x true⟩
  | sknp x => exact ⟨_, rfl, key (.sknp x) x false⟩
  | ldB x =>
    exact guarded _ _ _ (execFrame_advance _ _ _ (execFrame_of_eq _ _ rfl rfl rfl rfl rfl (Or.inl rfl) rfl))
  | stRegs x =>
    exact guarded _ _ _ (execFrame_advance _ _ _ (execFrame_of_eq _ _ rfl rfl rfl rfl rfl (Or.inl rfl) rfl))
  | ldRegs x =>
    exact guarded _ _ _ (execFrame_advance _ _ _ (execFrame_of_eq _ _ rfl rfl rfl rfl rfl (Or.inl rfl) rfl))
  | drw x y n =>
    exact guarded _ _ _ (execFrame_advance _ _ _ (execFrame_of_eq _ _ rfl rfl rfl rfl rfl (Or.inl rfl) rfl))
  | rnd x nn =>
    exact ⟨_, rfl, Or.inr (execFrame_advance _ _ _ (execFrame_of_eq _ _ rfl rfl rfl rfl rfl (Or.inr rfl) rfl))⟩
  | _ =>
    exact ⟨_, rfl, Or.inr (execFrame_advance _ _ _ (execFrame_of_eq _ _ rfl rfl rfl rfl rfl (Or.inl rfl) rfl))⟩

/-! ## The step -/

theorem step_stopped (s : State) (o : RunOutcome) (h : s.mode = .stopped o) : step s = .fault (.runEnded o) := by
  simp only [step, h]

theorem step_waiting (s : State) (x : RegIdx) (h : s.mode = .waitingForKey x) : step s = .next (waitStep x s) := by
  simp only [step, h]

theorem step_halted (s : State) (h : s.mode = .running) (hh : s.halt = true) : step s = .next (endRun .quit s) := by
  simp only [step, h, hh, if_true]

theorem step_unfetched (s : State) (r : FaultRecord) (h : s.mode = .running) (hh : s.halt = false)
    (hf : fetchInstr s = .error r) : step s = .next (raise r s) := by
  simp [step, h, hh, hf]

theorem step_executed (s : State) (i : Instr) (t : State) (h : s.mode = .running) (hh : s.halt = false)
    (hf : fetchInstr s = .ok i) (he : exec i s = .next t) : step s = .next (t.whileRunning finishCycle) := by
  simp [step, h, hh, hf, he]

/-- The shapes of a step that answers a next state. -/
theorem step_cases (s u : State) (h : step s = .next u) :
    (∃ x, s.mode = .waitingForKey x ∧ u = waitStep x s) ∨
    (s.mode = .running ∧ s.halt = true ∧ u = endRun .quit s) ∨
    (s.mode = .running ∧ s.halt = false ∧ ∃ r, fetchInstr s = .error r ∧ u = raise r s) ∨
    (s.mode = .running ∧ s.halt = false ∧
      ∃ i t, fetchInstr s = .ok i ∧ exec i s = .next t ∧ u = t.whileRunning finishCycle) := by
  cases hm : s.mode with
  | stopped o => rw [step_stopped s o hm] at h; cases h
  | waitingForKey x =>
    rw [step_waiting s x hm] at h
    cases h
    exact Or.inl ⟨x, rfl, rfl⟩
  | running =>
    cases hh : s.halt with
    | true =>
      rw [step_halted s hm hh] at h
      cases h
      exact Or.inr (Or.inl ⟨rfl, rfl, rfl⟩)
    | false =>
      cases hf : fetchInstr s with
      | error r =>
        rw [step_unfetched s r hm hh hf] at h
        cases h
        exact Or.inr (Or.inr (Or.inl ⟨rfl, rfl, r, rfl, rfl⟩))
      | ok i =>
        obtain ⟨t, he, _⟩ := exec_cases i s
        rw [step_executed s i t hm hh hf he] at h
        cases h
        exact Or.inr (Or.inr (Or.inr ⟨rfl, rfl, i, t, rfl, he, rfl⟩))

/-- The instruction of this cycle is the one fetched by a running core with no Quit pending. -/
theorem instrNow_eq_some (s : State) (i : Instr) :
    s.instrNow = some i ↔ s.mode = .running ∧ s.halt = false ∧ fetchInstr s = .ok i := by
  simp only [State.instrNow]
  cases hm : s.mode with
  | stopped o => simp
  | waitingForKey x => simp
  | running =>
    cases hh : s.halt with
    | true => simp
    | false => cases hf : fetchInstr s <;> simp

theorem waitStep_cases (x : RegIdx) (s : State) :
    (s.waitAnswer = .notYet ∧ waitStep x s = s.keptWaiting) ∨
    (∃ k, s.waitAnswer = .key k ∧ waitStep x s = resume (s.calledWait.setReg x (BitVec.ofNat 8 k.val))) ∨
    (s.waitAnswer = .quit ∧ waitStep x s = resume { s.calledWait with halt := true }) ∨
    (∃ e, s.waitAnswer = .error e ∧ waitStep x s = raise (.collaboratorError .wait e) s.calledWait) := by
  simp only [waitStep]
  cases h : s.waitAnswer with
  | notYet => exact Or.inl ⟨rfl, rfl⟩
  | key k => exact Or.inr (Or.inl ⟨k, rfl, rfl⟩)
  | quit => exact Or.inr (Or.inr (Or.inl ⟨rfl, rfl⟩))
  | error e => exact Or.inr (Or.inr (Or.inr ⟨e, rfl, rfl⟩))

/-! ## The end of a cycle -/

/-- The shapes of sub-steps 6 to 8 of a running core: a failing render; or, in the state `r` handed over or with nothing to
hand over, a failing poll; or the timer step in the state the poll left, where the latch shows the key answered and a Quit
is pending if it was or if the poll answered Quit. -/
theorem finishCycle_cases (s : State) (hm : s.mode = .running) :
    (s.dirty = true ∧ ∃ e, s.displayAnswer = .error e ∧
      finishCycle s = raise (.collaboratorError .render e) (s.calledDisplay (.render s.fb))) ∨
    ∃ r,
      ((s.dirty = false ∧ r = s) ∨
        (s.dirty = true ∧ s.displayAnswer = .ok ∧ r = { s.calledDisplay (.render s.fb) with dirty := false })) ∧
      ((∃ e, s.pollAnswer = .error e ∧ finishCycle s = raise (.collaboratorError .poll e) r.calledPoll) ∨
        ∃ (keys : Vector Bool 16) (quit : Bool),
          (∀ k : KeyCode, keys[k.val] = true ↔ s.pollAnswer = .key k) ∧ (quit = true ↔ s.pollAnswer = .quit) ∧
          (∀ e, s.pollAnswer ≠ .error e) ∧
          finishCycle s = timerStep { r.calledPoll with keys := keys, halt := s.halt || quit }) := by
  have polled : ∀ r : State, r.mode = .running → r.pollAnswer = s.pollAnswer → r.halt = s.halt → render s = r →
      ((∃ e, s.pollAnswer = .error e ∧ finishCycle s = raise (.collaboratorError .poll e) r.calledPoll) ∨
        ∃ (keys : Vector Bool 16) (quit : Bool),
          (∀ k : KeyCode, keys[k.val] = true ↔ s.pollAnswer = .key k) ∧ (quit = true ↔ s.pollAnswer = .quit) ∧
          (∀ e, s.pollAnswer ≠ .error e) ∧
          finishCycle s = timerStep { r.calledPoll with keys := keys, halt := s.halt || quit }) := by
    intro r hr ha hh he
    have none_iff : ∀ k : KeyCode, latchNone[k.val] = true ↔ False := fun k => by simp [latchNone]
    rw [finishCycle, he, whileRunning_running r poll hr, ← ha, ← hh]
    rcases poll_spec r with ⟨hp, h⟩ | ⟨j, hp, h⟩ | ⟨hp, h⟩ | ⟨e, hp, h⟩
    · refine Or.inr ⟨latchNone, false, fun k => ?_, ?_, ?_, ?_⟩
      · rw [none_iff, hp]; simp
      · rw [hp]; simp
      · intro e; rw [hp]; simp
      · rw [h, Bool.or_false]; exact whileRunning_running _ timerStep hr
    · refine Or.inr ⟨latchKey j, false, fun k => ?_, ?_, ?_, ?_⟩
      · have := pressed_latchKey r j k
        simp only [State.pressed] at this
        rw [this, hp]; simp [eq_comm]
      · rw [hp]; simp
      · intro e; rw [hp]; simp
      · rw [h, Bool.or_false]; exact whileRunning_running _ timerStep hr
    · refine Or.inr ⟨latchNone, true, fun k => ?_, ?_, ?_, ?_⟩
      · rw [none_iff, hp]; simp
      · rw [hp]; simp
      · intro e; rw [hp]; simp
      · rw [h, Bool.or_true]; exact whileRunning_running _ timerStep hr
    · exact Or.inl ⟨e, hp, by rw [h, whileRunning_stopped _ _ _ (raise_faultsWith _ _).1]⟩
  rcases render_spec s with ⟨hd, h⟩ | ⟨hd, ha, h⟩ | ⟨hd, e, ha, h⟩
  · exact Or.inr ⟨s, Or.inl ⟨hd, rfl⟩, polled s hm rfl rfl h⟩
  · exact Or.inr ⟨_, Or.inr ⟨hd, ha, rfl⟩, polled _ hm rfl rfl h⟩
  · refine Or.inl ⟨hd, e, ha, ?_⟩
    rw [finishCycle, h, whileRunning_stopped _ _ _ (raise_faultsWith _ _).1,
      whileRunning_stopped _ _ _ (raise_faultsWith _ _).1]

/-- A step that reaches sub-steps 6 to 8 in `t` is those sub-steps of `t`; and what `t` still has of the state `s` the step
began in. -/
theorem reachesRender_spec (s t : State) (h : ReachesRender s t) :
    step s = .next (finishCycle t) ∧ t.mode = .running ∧ t.lastTick = s.lastTick ∧ t.exclusive = s.exclusive ∧
      t.pollAnswer = s.pollAnswer ∧ t.clockSample = s.clockSample ∧ t.env.tickInterval = s.env.tickInterval := by
  cases h with
  | executed i hi he hm =>
    obtain ⟨h1, h2, h3⟩ := (instrNow_eq_some s i).1 hi
    obtain ⟨t', he', hc⟩ := exec_cases i s
    rw [he] at he'
    cases he'
    rcases hc with ⟨r, rfl⟩ | hf
    · rw [(raise_faultsWith r s).1] at hm; cases hm
    · refine ⟨?_, hm, hf.lastTick, hf.exclusive, ?_, ?_, ?_⟩
      · rw [step_executed s i t h1 h2 h3 he, whileRunning_running t _ hm]
      · rw [State.pollAnswer, State.pollAnswer, ← hf.env]
      · rw [State.clockSample, State.clockSample, ← hf.env]
      · rw [← hf.env]
  | key x k hm ha =>
    refine ⟨?_, rfl, rfl, rfl, rfl, rfl, rfl⟩
    rw [step_waiting s x hm, waitStep, ha]; rfl
  | quit x hm ha =>
    refine ⟨?_, rfl, rfl, rfl, rfl, rfl, rfl⟩
    rw [step_waiting s x hm, waitStep, ha]; rfl

end Sys2Proof.Machine
end

