-- ==== Sys2Proof/Tests/Slice0.lean ====
section
/-! SUPPORT. The model's own tests. The expected results come from the spec: the encodings of 30_encoding.md R73 for the
decoding tests, the vectors of 95_test_vectors.md (named in each comment) for the step tests. The last part shows, for each
statement that has hypotheses, concrete values that meet them. -/

namespace Sys2Proof.Tests

open Sys2Proof.Machine

/-! ## Well-formedness: ill-formed terms are refused -/

theorem test_wf_jp : (Instr.jp 0x1000).wf = false ∧ (Instr.jp 0xFFF).wf = true := by decide
theorem test_wf_call : (Instr.call 0x1000).wf = false ∧ (Instr.call 0xFFF).wf = true := by decide
theorem test_wf_ldI : (Instr.ldI 0xFFFF).wf = false ∧ (Instr.ldI 0xFFF).wf = true := by decide
theorem test_wf_jpV0 : (Instr.jpV0 0x8000).wf = false ∧ (Instr.jpV0 0x000).wf = true := by decide
theorem test_wf_drw : (Instr.drw 0 0 16).wf = false ∧ (Instr.drw 0 0 15).wf = true := by decide

/-! ## Decoding: a word of each row, written bit by bit from the row's encoding (R73) -/

theorem test_decode_cls : decode 0b0000000011100000#16 = .ok .cls := by decide
theorem test_decode_ret : decode 0b0000000011101110#16 = .ok .ret := by decide
theorem test_decode_jp : decode 0b0001101010111100#16 = .ok (.jp 0xABC) := by decide
theorem test_decode_call : decode 0b0010111111111110#16 = .ok (.call 0xFFE) := by decide
theorem test_decode_seImm : decode 0b0011000110100101#16 = .ok (.seImm 1 0xA5) := by decide
theorem test_decode_sneImm : decode 0b0100111001111000#16 = .ok (.sneImm 14 0x78) := by decide
theorem test_decode_seReg : decode 0b0101001011010000#16 = .ok (.seReg 2 13) := by decide
theorem test_decode_ldImm : decode 0b0110101000101011#16 = .ok (.ldImm 10 0x2B) := by decide
theorem test_decode_addImm : decode 0b0111001100000001#16 = .ok (.addImm 3 0x01) := by decide
theorem test_decode_ldReg : decode 0b1000010010110000#16 = .ok (.ldReg 4 11) := by decide
theorem test_decode_orReg : decode 0b1000010010110001#16 = .ok (.orReg 4 11) := by decide
theorem test_decode_andReg : decode 0b1000010010110010#16 = .ok (.andReg 4 11) := by decide
theorem test_decode_xorReg : decode 0b1000010010110011#16 = .ok (.xorReg 4 11) := by decide
theorem test_decode_addReg : decode 0b1000010010110100#16 = .ok (.addReg 4 11) := by decide
theorem test_decode_subReg : decode 0b1000010010110101#16 = .ok (.subReg 4 11) := by decide
theorem test_decode_shr : decode 0b1000010010110110#16 = .ok (.shr 4 11) := by decide
theorem test_decode_subn : decode 0b1000010010110111#16 = .ok (.subn 4 11) := by decide
theorem test_decode_shl : decode 0b1000010010111110#16 = .ok (.shl 4 11) := by decide
theorem test_decode_sneReg : decode 0b1001011110000000#16 = .ok (.sneReg 7 8) := by decide
theorem test_decode_ldI : decode 0b1010000100100011#16 = .ok (.ldI 0x123) := by decide
theorem test_decode_jpV0 : decode 0b1011010111110000#16 = .ok (.jpV0 0x5F0) := by decide
theorem test_decode_rnd : decode 0b1100001100001111#16 = .ok (.rnd 3 0x0F) := by decide
theorem test_decode_drw : decode 0b1101000100100101#16 = .ok (.drw 1 2 5) := by decide
theorem test_decode_skp : decode 0b1110001110011110#16 = .ok (.skp 3) := by decide
theorem test_decode_sknp : decode 0b1110001110100001#16 = .ok (.sknp 3) := by decide
theorem test_decode_ldVxDT : decode 0b1111110100000111#16 = .ok (.ldVxDT 13) := by decide
theorem test_decode_ldVxK : decode 0b1111010100001010#16 = .ok (.ldVxK 5) := by decide
theorem test_decode_ldDTVx : decode 0b1111110000010101#16 = .ok (.ldDTVx 12) := by decide
theorem test_decode_ldSTVx : decode 0b1111001100011000#16 = .ok (.ldSTVx 3) := by decide
theorem test_decode_addI : decode 0b1111001000011110#16 = .ok (.addI 2) := by decide
theorem test_decode_ldF : decode 0b1111000100101001#16 = .ok (.ldF 1) := by decide
theorem test_decode_ldB : decode 0b1111001100110011#16 = .ok (.ldB 3) := by decide
theorem test_decode_stRegs : decode 0b1111001001010101#16 = .ok (.stRegs 2) := by decide
theorem test_decode_ldRegs : decode 0b1111111101100101#16 = .ok (.ldRegs 15) := by decide

/-- X1 to X8: illegal opcodes are refused by name (R76). -/
theorem test_decode_illegal :
    ([0x0000, 0x0123, 0x00E1, 0x5121, 0x9AB3, 0x8008, 0x800F, 0xE09F, 0xE0A2, 0xF0FF, 0xF000, 0xFFFF] : List Opcode).all
      (fun op => decode op == .error (.noSuchInstruction op)) = true := by decide
/-- X9: legal opcodes. -/
theorem test_decode_legal :
    [decode 0x00E0, decode 0x00EE, decode 0xD000, decode 0x8FFE, decode 0xFF65] =
      [.ok .cls, .ok .ret, .ok (.drw 0 0 0), .ok (.shl 15 15), .ok (.ldRegs 15)] := by decide
/-- The bytes of a program, most significant first (R53); one byte is not an instruction (R70). -/
theorem test_decode_bytes :
    decodeBytes [0x12, 0x00, 0xFF] = .ok (.jp 0x200, [0xFF]) ∧ decodeBytes [0x12] = .error (.truncated 1) := by decide

/-! ## Single steps -/

/-- The state of the vectors' conventions: after reset and boot, with polls that answer nothing, a clock that stands still
and a display that does not fail. -/
def base : State :=
  { State.reset with
    exclusive := true,
    env :=
      { Env.reset with
        clock := ⟨[0, 0], 0⟩, polls := ⟨[.noEvent, .noEvent], 0⟩, display := ⟨[.ok, .ok, .ok], 0⟩ } }

/-- The step from `s` with the word `op` at the pc answers a next state that satisfies `p`. -/
def runs (op : Opcode) (s : State) (p : State → Bool) : Bool :=
  match step (s.placeAtPc op) with
  | .next t => p t
  | .fault _ => false
  | .refused _ => false

/-- The step from `s` answers a next state that satisfies `p`. -/
def steps (s : State) (p : State → Bool) : Bool :=
  match step s with
  | .next t => p t
  | .fault _ => false
  | .refused _ => false

/-- `base` with one byte of memory. -/
def withByte (a : Nat) (v : Byte) (s : State) : State := { s with mem := s.mem.write a v }

/-- A1. -/
theorem test_step_ldImm :
    runs 0x63AB (base.setReg 3 0x12) (fun t => t.reg 3 == 0xAB && t.pc == 0x202) = true := by decide
/-- A2. -/
theorem test_step_addImm :
    runs 0x7302 ((base.setReg 3 0xFF).setReg 15 0x55) (fun t => t.reg 3 == 0x01 && t.reg 15 == 0x55) = true := by decide
/-- A3. -/
theorem test_step_addImm_vf :
    runs 0x7FFF (base) (fun t => t.reg 15 == 0xFF) = true := by decide
/-- A4. -/
theorem test_step_ldReg :
    runs 0x8010 (base.setReg 1 0x42) (fun t => t.reg 0 == 0x42 && t.reg 1 == 0x42) = true := by decide
/-- A5. -/
theorem test_step_or :
    runs 0x8011 (((base.setReg 0 0xF0).setReg 1 0x0F).setReg 15 0x07) (fun t => t.reg 0 == 0xFF && t.reg 15 == 0x07) = true := by decide
/-- A6. -/
theorem test_step_and :
    runs 0x8012 ((base.setReg 0 0xF0).setReg 1 0x3C) (fun t => t.reg 0 == 0x30) = true := by decide
/-- A7. -/
theorem test_step_xor :
    runs 0x8013 ((base.setReg 0 0xF0).setReg 1 0x3C) (fun t => t.reg 0 == 0xCC) = true := by decide
/-- A8. -/
theorem test_step_xor_self :
    runs 0x8003 (base.setReg 0 0x55) (fun t => t.reg 0 == 0x00) = true := by decide
/-- S4. -/
theorem test_step_add :
    runs 0x8014 ((base.setReg 0 0xFF).setReg 1 0x01) (fun t => t.reg 0 == 0x00 && t.reg 15 == 1) = true := by decide
/-- A12. -/
theorem test_step_add_vf :
    runs 0x8F14 ((base.setReg 15 0xFF).setReg 1 0x01) (fun t => t.reg 15 == 1) = true := by decide
/-- S4. -/
theorem test_step_sub :
    runs 0x8015 (base.setReg 1 0x01) (fun t => t.reg 0 == 0xFF && t.reg 15 == 0) = true := by decide
/-- A14. -/
theorem test_step_sub_equal :
    runs 0x8015 ((base.setReg 0 0x05).setReg 1 0x05) (fun t => t.reg 0 == 0x00 && t.reg 15 == 1) = true := by decide
/-- A19. -/
theorem test_step_shr :
    runs 0x8016 ((base.setReg 0 0x01).setReg 1 0x80) (fun t => t.reg 0 == 0x00 && t.reg 15 == 1 && t.reg 1 == 0x80) = true := by decide
/-- A21. -/
theorem test_step_shr_vf :
    runs 0x8F06 (base.setReg 15 0x02) (fun t => t.reg 15 == 0) = true := by decide
/-- A22. -/
theorem test_step_subn :
    runs 0x8017 (base.setReg 0 0x01) (fun t => t.reg 0 == 0xFF && t.reg 15 == 0) = true := by decide
/-- A23. -/
theorem test_step_subn_noborrow :
    runs 0x8017 ((base.setReg 0 0x01).setReg 1 0x03) (fun t => t.reg 0 == 0x02 && t.reg 15 == 1) = true := by decide
/-- A25. -/
theorem test_step_shl :
    runs 0x800E (base.setReg 0 0x81) (fun t => t.reg 0 == 0x02 && t.reg 15 == 1) = true := by decide
/-- A27. -/
theorem test_step_shl_ignores_vy :
    runs 0x801E ((base.setReg 0 0x01).setReg 1 0x80) (fun t => t.reg 0 == 0x02 && t.reg 15 == 0) = true := by decide
/-- B1. -/
theorem test_step_jp :
    runs 0x1000 (base) (fun t => t.pc == 0x000 && t.mode == .running) = true := by decide
/-- B5. -/
theorem test_step_call :
    runs 0x2300 ({ base with pc := 0x204 }) (fun t => t.slot 0 == 0x206 && t.sp == 1 && t.pc == 0x300) = true := by decide
/-- B6. -/
theorem test_step_call_overflow :
    runs 0x2300 ({ base with pc := 0x204, sp := 16 }) (fun t => t.mode == .stopped (.fault (.stackOverflow 0x204 0x2300 .call 16)) && t.sp == 16 && t.pc == 0x204 && t.exclusive == false) = true := by decide
/-- B7. -/
theorem test_step_ret :
    runs 0x00EE ({ base.setSlot 0 0x206 with sp := 1, pc := 0x300 }) (fun t => t.sp == 0 && t.pc == 0x206 && t.slot 0 == 0x206) = true := by decide
/-- B8. -/
theorem test_step_ret_underflow :
    runs 0x00EE (base) (fun t => t.mode == .stopped (.fault (.stackUnderflow 0x200 0x00EE .ret 0))) = true := by decide
/-- B10. -/
theorem test_step_jpV0 :
    runs 0xB5F0 ((base.setReg 0 0x04).setReg 5 0x99) (fun t => t.pc == 0x5F4) = true := by decide
/-- B11. -/
theorem test_step_jpV0_nowrap :
    runs 0xBFFF (base.setReg 0 0xFF) (fun t => t.pc == 0x10FE) = true := by decide
/-- K1. -/
theorem test_step_seImm :
    runs 0x3210 (base.setReg 2 0x10) (fun t => t.pc == 0x204) = true := by decide
/-- K2. -/
theorem test_step_seImm_next :
    runs 0x3210 (base.setReg 2 0x11) (fun t => t.pc == 0x202) = true := by decide
/-- K3. -/
theorem test_step_sneImm :
    runs 0x4210 (base.setReg 2 0x11) (fun t => t.pc == 0x204) = true := by decide
/-- K4. -/
theorem test_step_sneImm_next :
    runs 0x4210 (base.setReg 2 0x10) (fun t => t.pc == 0x202) = true := by decide
/-- K5. -/
theorem test_step_seReg :
    runs 0x5010 ((base.setReg 0 0x07).setReg 1 0x07) (fun t => t.pc == 0x204) = true := by decide
/-- K7. -/
theorem test_step_sneReg :
    runs 0x9010 ((base.setReg 0 0x07).setReg 1 0x08) (fun t => t.pc == 0x204) = true := by decide
/-- K8. -/
theorem test_step_sneReg_self :
    runs 0x9550 (base) (fun t => t.pc == 0x202) = true := by decide
/-- K10. -/
theorem test_step_skp :
    runs 0xE39E ({ base.setReg 3 0x05 with keys := latchKey 5 }) (fun t => t.pc == 0x204) = true := by decide
/-- K14. -/
theorem test_step_skp_fault :
    runs 0xE39E (base.setReg 3 0x10) (fun t => t.mode == .stopped (.fault (.keyIndexOutOfRange 0x200 0xE39E 0x10))) = true := by decide
/-- K12. -/
theorem test_step_sknp :
    runs 0xE3A1 (base.setReg 3 0x05) (fun t => t.pc == 0x204) = true := by decide
/-- M1. -/
theorem test_step_ldI :
    runs 0xA123 (base) (fun t => t.I == 0x123) = true := by decide
/-- M3. -/
theorem test_step_addI :
    runs 0xF01E ({ base.setReg 0 0x01 with I := 0xFFF }) (fun t => t.I == 0x1000 && t.reg 15 == 0) = true := by decide
/-- M4. -/
theorem test_step_addI_wraps :
    runs 0xF01E ({ base.setReg 0 0x02 with I := 0xFFFF }) (fun t => t.I == 0x0001) = true := by decide
/-- M5. -/
theorem test_step_ldF :
    runs 0xF129 (base.setReg 1 0x0A) (fun t => t.I == 0x082) = true := by decide
/-- M7. -/
theorem test_step_ldF_masks :
    runs 0xF129 (base.setReg 1 0x1A) (fun t => t.I == 0x082) = true := by decide
/-- M9. -/
theorem test_step_ldB :
    runs 0xF333 ({ base.setReg 3 0xFF with I := 0x300 }) (fun t => t.byte 0x300 == 2 && t.byte 0x301 == 5 && t.byte 0x302 == 5 && t.I == 0x300) = true := by decide
/-- M12. -/
theorem test_step_ldB_fault :
    runs 0xF333 ({ base.setReg 3 0x64 with I := 0xFFE }) (fun t => t.mode == .stopped (.fault (.memoryOutOfBounds 0x200 0xF333 0x1000)) && t.byte 0xFFE == 0) = true := by decide
/-- M13. -/
theorem test_step_stRegs :
    runs 0xF255 ({ ((base.setReg 0 1).setReg 1 2).setReg 2 3 with I := 0x300 }) (fun t => t.byte 0x300 == 1 && t.byte 0x301 == 2 && t.byte 0x302 == 3 && t.byte 0x303 == 0 && t.I == 0x300) = true := by decide
/-- M17. -/
theorem test_step_stRegs_fault :
    runs 0xF055 ({ base with I := 0x1005 }) (fun t => t.mode == .stopped (.fault (.memoryOutOfBounds 0x200 0xF055 0x1005))) = true := by decide
/-- M18. -/
theorem test_step_ldRegs :
    runs 0xF165 ({ withByte 0x300 0xAA (withByte 0x301 0xBB (base.setReg 2 0x33)) with I := 0x300 }) (fun t => t.reg 0 == 0xAA && t.reg 1 == 0xBB && t.reg 2 == 0x33 && t.I == 0x300) = true := by decide
/-- M19. -/
theorem test_step_ldRegs_vf :
    runs 0xFF65 ({ withByte 0x30F 0x09 base with I := 0x300 }) (fun t => t.reg 15 == 0x09) = true := by decide
/-- G1. -/
theorem test_step_cls :
    runs 0x00E0 ({ base with fb := base.fb.flip 3 4 }) (fun t => t.fb == Framebuffer.clear && t.dirty == false && t.log == [.clockSample, .poll, .render Framebuffer.clear, .clockSample]) = true := by decide
/-- G5, G13. -/
theorem test_step_drw :
    runs 0xD011 ({ withByte 0x300 0xFF (base.setReg 0 0x3C) with I := 0x300, fb := base.fb.flip 1 0 }) (fun t => t.fb.pixel 63 0 && t.fb.pixel 0 0 && !t.fb.pixel 1 0 && t.fb.pixel 3 0 && !t.fb.pixel 4 0 && !t.fb.pixel 60 1 && t.reg 15 == 1) = true := by decide
/-- G9. -/
theorem test_step_drw_vf :
    runs 0xD0F1 ({ withByte 0x300 0x80 (base.setReg 15 0x05) with I := 0x300 }) (fun t => t.fb.pixel 0 5 && !t.fb.pixel 7 5 && t.reg 15 == 0) = true := by decide
/-- R1. -/
theorem test_step_ldVxDT :
    runs 0xF307 ({ base with DT := 0x3C }) (fun t => t.reg 3 == 0x3C) = true := by decide
/-- T6. -/
theorem test_step_ldDTVx :
    runs 0xF315 ({ base.setReg 3 0x0A with env := { base.env with clock := ⟨[20000000], 0⟩ } }) (fun t => t.DT == 0x09 && t.lastTick == 20000000) = true := by decide
/-- R3. -/
theorem test_step_ldSTVx :
    runs 0xF318 (base.setReg 3 0x05) (fun t => t.ST == 0x05) = true := by decide
/-- R4. -/
theorem test_step_rnd :
    runs 0xC30F ({ base with env := { base.env with random := ⟨[0xB6], 0⟩ } }) (fun t => t.reg 3 == 0x06) = true := by decide
/-- W1. -/
theorem test_step_ldVxK :
    runs 0xF50A (base) (fun t => t.mode == .waitingForKey 5 && t.pc == 0x200 && t.log == base.log) = true := by decide

/-! ## The cycle -/

/-- `base` suspended by `F50A`, with what `wait()` does. -/
def suspended (w : WaitAnswer) : State :=
  { base with mode := .waitingForKey 5, env := { base.env with waits := ⟨[w], 0⟩ } }

/-- W1. -/
theorem test_wait_key :
    steps (suspended (.key 0xC)) (fun t => t.reg 5 == 0x0C && t.pc == 0x202 && t.mode == .running && t.keys == latchNone) =
      true := by decide
/-- W2. -/
theorem test_wait_quit :
    steps ((suspended .quit).setReg 5 0x33) (fun t => t.reg 5 == 0x33 && t.halt && t.pc == 0x202) = true := by decide
/-- W3: after a long wait both timers tick once (ST beside the vector's DT, R200). -/
theorem test_wait_one_tick :
    steps
      { suspended (.key 1) with
        DT := 5, ST := 1, env := { (suspended (.key 1)).env with clock := ⟨[1000000000], 0⟩ } }
      (fun t => t.DT == 4 && t.ST == 0 && t.lastTick == 1000000000) = true := by decide
/-- Y3. -/
theorem test_halt_check :
    steps { base with halt := true } (fun t => t.mode == .stopped .quit && t.exclusive == false && t.pc == 0x200) = true := by
  decide
/-- Y1. -/
theorem test_poll_key :
    runs 0x6000 { base with env := { base.env with polls := ⟨[.key 5], 0⟩ } } (fun t => t.keys == latchKey 5) = true := by
  decide
/-- Y4. -/
theorem test_render_fails :
    runs 0x00E0 { base with env := { base.env with display := ⟨[.error 7, .ok], 0⟩ } } (fun t =>
      t.mode == .stopped (.fault (.collaboratorError .render 7)) && t.exclusive == false &&
        t.log == [.leaveExclusive, .render Framebuffer.clear, .clockSample]) = true := by decide
/-- T2: a tick at 16.6 ms. -/
theorem test_tick :
    runs 0x6000 { base with DT := 3, ST := 1, env := { base.env with clock := ⟨[16600000], 0⟩ } } (fun t =>
      t.DT == 2 && t.ST == 0 && t.lastTick == 16600000) = true := by decide
/-- T1: no tick at 16.5 ms. -/
theorem test_no_tick :
    runs 0x6000 { base with DT := 3, ST := 1, env := { base.env with clock := ⟨[16500000], 0⟩ } } (fun t =>
      t.DT == 3 && t.ST == 1 && t.lastTick == 0) = true := by decide
/-- X10 and X11: the last fetch that stays in memory, and the first that does not. -/
theorem test_fetch_bound :
    runs 0x1200 { base with pc := 0xFFE } (fun t => t.pc == 0x200) = true ∧
      steps { base with pc := 0xFFF } (fun t => t.mode == .stopped (.fault (.pcOutOfBounds 0xFFF))) = true := by decide
/-- L3: nothing loaded. -/
theorem test_empty_memory :
    steps base (fun t => t.mode == .stopped (.fault (.decodeError 0x200 0x0000)) && t.exclusive == false) = true := by decide
/-- L4: the font at reset. -/
theorem test_font :
    ((List.range 5).map (fun k => State.reset.byte (0x050 + k)) == [0xF0, 0x90, 0x90, 0x90, 0xF0] &&
      (List.range 5).map (fun k => State.reset.byte (0x09B + k)) == [0xF0, 0x80, 0xF0, 0x80, 0x80] &&
      State.reset.byte 0x0A0 == 0x00) = true := by decide
/-- S1: the load places the bytes (R55); boot enters the exclusive mode (R222). -/
theorem test_boot :
    (fun t : State => t.byte 0x200 == 0x60 && t.byte 0x205 == 0x14 && t.byte 0x206 == 0 && t.exclusive)
      (boot [0x60, 0x05, 0x61, 0x03, 0x80, 0x14] { base with exclusive := false }) = true := by decide
/-- The word placed for the next fetch is the one that runs, from the reset state. -/
theorem test_withFetchWord :
    (State.reset.withFetchWord 16 0xA123).instrNow = some (.ldI 0x123) ∧ decodeTableWord 16 0xA123 = some (.ldI 0x123) ∧
      decodeTableWord 16 0x0123 = none := by decide

/-! ## Witnesses: for each statement with hypotheses, values that meet them, at the boundaries of each clause -/

/-- `base` with the word `op` at the pc. -/
def at200 (op : Opcode) : State := base.placeAtPc op

theorem witness_DecodeOfEncode : (Instr.jp 0xFFF).wf = true ∧ (Instr.drw 15 0 15).wf = true := by decide
theorem witness_EncodeOfDecode : decode 0xBFFF = .ok (.jpV0 0xFFF) ∧ decode 0xDFFF = .ok (.drw 15 15 15) := by decide
theorem witness_DecodeFollowsCatalogue :
    (∃ r ∈ opcodeTable, r.selects 0xFF65 = true) ∧ ¬ ∃ r ∈ opcodeTable, r.selects 0xFF66 = true := by decide
theorem witness_CatalogueRowsDisjoint :
    ∃ r ∈ opcodeTable, ∃ r' ∈ opcodeTable, r.selects 0x8FFE = true ∧ r'.selects 0x8FFE = true := by decide
theorem witness_CallPushesReturnAddress :
    State.sp { base with sp := 0 } < 16 ∧ State.sp { base with sp := 15 } < 16 ∧ State.sp { base with sp := 16 } = 16 := by
  decide
theorem witness_ReturnPopsReturnAddress :
    State.sp { base with sp := 1 } ≠ 0 ∧ State.sp { base with sp := 16 } ≠ 0 ∧ base.sp = 0 := by decide
theorem witness_CallThenReturnResumes :
    State.sp { base with sp := 15, pc := 0xFFE } < 16 ∧ (State.pc { base with sp := 15, pc := 0xFFE }).toNat ≤ 0xFFE := by
  decide
theorem witness_SkipOnRegisters : (0x1#4) ≠ 0x0#4 ∧ (0xF#4) ≠ 0x0#4 := by decide
theorem witness_SkipOnKey :
    ((base.setReg 3 0x00).reg 3).toNat = (0 : KeyCode).val ∧ ((base.setReg 3 0x0F).reg 3).toNat = (15 : KeyCode).val ∧
      0xF < ((base.setReg 3 0x10).reg 3).toNat := by decide
theorem witness_StoreDecimalDigits :
    base.mem.wf = true ∧ (State.I { base with I := 0xFFD }).toNat + 2 ≤ 0xFFF ∧
      0xFFF < (State.I { base with I := 0xFFE }).toNat + 2 := by decide
theorem witness_StoreRegisterBlock :
    base.mem.wf = true ∧ (State.I { base with I := 0xFF0 }).toNat + (15 : RegIdx).val ≤ 0xFFF ∧
      (State.I { base with I := 0xFFF }).toNat + (0 : RegIdx).val ≤ 0xFFF ∧
      0xFFF < (State.I { base with I := 0xFF1 }).toNat + (15 : RegIdx).val := by decide
theorem witness_LoadRegisterBlock :
    (State.I { base with I := 0xFF0 }).toNat + (15 : RegIdx).val ≤ 0xFFF ∧ (14 : RegIdx) < 15 ∧ (15 : RegIdx) ≤ 15 ∧
      0xFFF < (State.I { base with I := 0x1000 }).toNat + (0 : RegIdx).val := by decide
theorem witness_StoredBytesAreFetched :
    base.mem.wf = true ∧ (State.I { base with I := 0xFF0 }).toNat + (15 : RegIdx).val ≤ 0xFFF ∧
      (14 : RegIdx).val + 1 = (15 : RegIdx).val ∧ (15 : RegIdx) ≤ 15 ∧
      (0xFFE : Addr).toNat = (State.I { base with I := 0xFF0 }).toNat + (14 : RegIdx).val := by decide

/-- A one-row sprite 0x80 at 0x300, to be drawn at (0, 0), where the pixel is already set. -/
def sprite : State := { withByte 0x300 0x80 base with I := 0x300, fb := base.fb.flip 0 0 }

theorem witness_DrawFlipsCoveredPixels :
    15 ≤ 15 ∧ (0 = 0 ∨ (State.I { base with I := 0xFFFF }).toNat + (0 - 1) ≤ 0xFFF) ∧
      (15 = 0 ∨ (State.I { base with I := 0xFF1 }).toNat + (15 - 1) ≤ 0xFFF) ∧
      (0 < 2 ∧ 0xFFF < (State.I { base with I := 0xFFF }).toNat + (2 - 1)) := by decide
theorem witness_DrawFlipsCoveredPixels_covered :
    ∃ px py, SpriteCovers (fun k => sprite.byte (sprite.effAddr k)) (sprite.reg 0).toNat (sprite.reg 1).toNat 1 px py ∧
      sprite.fb.pixel px py = true :=
  ⟨0, 0, ⟨0, 0, by decide, by decide, by decide, by decide, by decide⟩, by decide⟩
theorem witness_DrawFlipsCoveredPixels_free :
    (¬ ∃ px py, SpriteCovers (fun k => base.byte (base.effAddr k)) (base.reg 0).toNat (base.reg 1).toNat 0 px py ∧
      base.fb.pixel px py = true) ∧
      ¬ SpriteCovers (fun k => base.byte (base.effAddr k)) (base.reg 0).toNat (base.reg 1).toNat 0 0 0 := by
  refine ⟨?_, ?_⟩
  · rintro ⟨_, _, ⟨row, _, h, _⟩, _⟩; omega
  · rintro ⟨row, _, h, _⟩; omega
theorem witness_DrawTwiceRestores :
    1 ≤ 15 ∧ (0 : RegIdx) ≠ vf ∧ (14 : RegIdx) ≠ vf ∧ (1 = 0 ∨ (State.I { base with I := 0xFFF }).toNat + (1 - 1) ≤ 0xFFF) := by
  decide
theorem witness_KeyWaitBegins : (at200 0xF50A).instrNow = some (.ldVxK 5) := by decide
/-- Each answer of `wait()`, a wait step that ends running and one that does not. -/
theorem witness_WaitStepCompletesKeyWait :
    (suspended .quit).mode = .waitingForKey 5 ∧ (suspended (.key 0)).waitAnswer = .key 0 ∧
      (suspended (.key 15)).waitAnswer = .key 15 ∧ (suspended .quit).waitAnswer = .quit ∧
      (suspended (.error 7)).waitAnswer = .error 7 ∧ (suspended .notYet).waitAnswer = .notYet ∧
      (∃ t, step (suspended (.key 15)) = .next t ∧ t.mode = .running) ∧
      ∃ t, step { suspended (.key 15) with env := { (suspended (.key 15)).env with polls := ⟨[.error 7], 0⟩ } } = .next t ∧
        t.mode ≠ .running :=
  ⟨by decide, by decide, by decide, by decide, by decide, by decide, ⟨_, rfl, by decide⟩, ⟨_, rfl, by decide⟩⟩
theorem witness_RandomByteMasked :
    (Env.random { base.env with random := ⟨[0xB6, 0x5A], 0⟩ }).pending = 0xB6 :: [0x5A] := by decide
theorem witness_StepRunsDecodedInstruction :
    (at200 0xA123).mode = .running ∧ (at200 0xA123).halt = false ∧ (at200 0xA123).pc.toNat ≤ 0xFFE ∧
      decode ((at200 0xA123).byte (at200 0xA123).pc.toNat ++ (at200 0xA123).byte ((at200 0xA123).pc.toNat + 1)) =
        .ok (.ldI 0x123) := by decide
/-- Both ways on: an instruction after which the core runs, and one after which it does not. -/
theorem witness_StepRunsDecodedInstruction_modes :
    (∃ t, exec (.ldI 0x123) (at200 0xA123) = .next t ∧ t.mode = .running) ∧
      ∃ t, exec (.ldVxK 5) (at200 0xF50A) = .next t ∧ t.mode ≠ .running :=
  ⟨⟨_, rfl, rfl⟩, ⟨_, rfl, by decide⟩⟩
theorem witness_FetchAndDecodeFaults :
    base.mode = .running ∧ base.halt = false ∧ 0xFFE < (State.pc { base with pc := 0xFFF }).toNat ∧
      (State.pc { base with pc := 0xFFE }).toNat ≤ 0xFFE ∧
      ¬ ∃ r ∈ opcodeTable, r.selects (State.byte { base with pc := 0xFFE } 0xFFE ++ State.byte { base with pc := 0xFFE } 0xFFF) = true := by
  decide
theorem witness_HaltCheckEndsRun :
    State.mode { base with halt := true } = .running ∧ State.halt { base with halt := true } = true ∧
      State.exclusive { base with halt := true } = true ∧ State.exclusive { base with halt := true, exclusive := false } = false ∧
      State.displayAnswer { base with halt := true } = .ok ∧
      State.displayAnswer { base with halt := true, env := { base.env with display := ⟨[.error 7], 0⟩ } } = .error 7 := by
  decide
theorem witness_StoppedHasNoStep : State.mode { base with mode := .stopped .quit } = .stopped .quit := by decide
theorem witness_AdvanceIsExact :
    (State.pc { base with pc := 0xFFE }).toNat ≤ 0xFFE ∧ (at200 0xF50A).instrNow = some (.ldVxK 5) ∧
      exec (.ldVxK 5) (at200 0xF50A) = .next (advance (.wait 5) (at200 0xF50A)) ∧
      (suspended (.key 15)).mode = .waitingForKey 5 ∧ (suspended (.key 15)).waitAnswer = .key 15 ∧
      (suspended .quit).waitAnswer = .quit :=
  ⟨by decide, by decide, rfl, by decide, by decide, by decide⟩
/-- One state for each kind of fault of execute. -/
theorem witness_FaultsArePrecise :
    (∃ t, exec (.call 0x300) { base with sp := 16 } = .next t ∧
      t.mode = .stopped (.fault (.stackOverflow 0x200 0x2300 .call 16))) ∧
    (∃ t, exec .ret base = .next t ∧ t.mode = .stopped (.fault (.stackUnderflow 0x200 0x00EE .ret 0))) ∧
    (∃ t, exec (.skp 3) (base.setReg 3 0x10) = .next t ∧
      t.mode = .stopped (.fault (.keyIndexOutOfRange 0x200 0xE39E 0x10))) ∧
    ∃ t, exec (.ldRegs 15) { base with I := 0xFF1 } = .next t ∧
      t.mode = .stopped (.fault (.memoryOutOfBounds 0x200 0xFF65 0x1000)) :=
  ⟨⟨_, rfl, by decide⟩, ⟨_, rfl, by decide⟩, ⟨_, rfl, by decide⟩, ⟨_, rfl, by decide⟩⟩
theorem witness_FaultRecordsNameInstruction :
    base.mode = .running ∧ State.sp { base with sp := 16 } ≤ 16 ∧
      ∃ t, exec (.call 0x300) { base with sp := 16 } = .next t ∧
        t.mode = .stopped (.fault (.stackOverflow 0x200 0x2300 .call 16)) :=
  ⟨by decide, by decide, _, rfl, by decide⟩
/-- A step that hands a framebuffer over. -/
theorem witness_OneSnapshotPerStep :
    ∃ t, step (at200 0x00E0) = .next t ∧ t.log = [.clockSample, .poll, .render t.fb] ++ (at200 0x00E0).log ∧
      (at200 0x00E0).instrNow = some .cls :=
  ⟨_, rfl, by decide, by decide⟩
/-- A completed cycle after each answer of the poll. -/
theorem witness_PollRebuildsLatch :
    (∃ t, step { at200 0x6000 with env := { base.env with polls := ⟨[.key 5], 0⟩ } } = .next t ∧ t.mode = .running) ∧
      ∃ t, step { at200 0x6000 with env := { base.env with polls := ⟨[.quit], 0⟩ } } = .next t ∧ t.mode = .running :=
  ⟨⟨_, rfl, by decide⟩, ⟨_, rfl, by decide⟩⟩
/-- A completed cycle and a completed wait step, at the first sample that ticks and at the last that does not. -/
theorem witness_TimersTickOnce :
    (∃ u, ReachesRender (at200 0x6000) u) ∧ (at200 0x6000).instrNow = some (.ldImm 0 0) ∧
      (∃ t, step (at200 0x6000) = .next t ∧ t.mode = .running) ∧
      (∃ u, ReachesRender (suspended (.key 15)) u) ∧ (suspended (.key 15)).instrNow = none ∧
      (∃ t, step (suspended (.key 15)) = .next t ∧ t.mode = .running) ∧
      (base.lastTick + base.env.tickInterval ≤ State.clockSample { base with env := { base.env with clock := ⟨[16600000], 0⟩ } }) ∧
      State.clockSample { base with env := { base.env with clock := ⟨[16599999], 0⟩ } } < base.lastTick + base.env.tickInterval :=
  ⟨⟨_, .executed (.ldImm 0 0) (by decide) rfl rfl⟩, by decide, ⟨_, rfl, by decide⟩, ⟨_, .key 5 15 rfl rfl⟩, by decide,
    ⟨_, rfl, by decide⟩, by decide, by decide⟩
/-- Each way for a call to fail after an executed instruction, and after a wait step that Quit completed. -/
theorem witness_CollaboratorErrorKeepsEffects :
    (∃ t, ReachesRender { at200 0x00E0 with env := { base.env with display := ⟨[.error 7], 0⟩ } } t ∧
        t.dirty = true ∧ t.displayAnswer = .error 7) ∧
      (∃ t, ReachesRender { at200 0x6000 with env := { base.env with polls := ⟨[.error 7], 0⟩ } } t ∧
        t.dirty = false ∧ t.pollAnswer = .error 7) ∧
      (∃ t, ReachesRender { at200 0x00E0 with env := { base.env with polls := ⟨[.error 7], 0⟩ } } t ∧
        t.dirty = true ∧ t.displayAnswer = .ok ∧ t.pollAnswer = .error 7) ∧
      ∃ t, ReachesRender { suspended .quit with env := { (suspended .quit).env with polls := ⟨[.error 7], 0⟩ } } t ∧
        t.dirty = false ∧ t.pollAnswer = .error 7 :=
  ⟨⟨_, .executed .cls (by decide) rfl rfl, by decide⟩, ⟨_, .executed (.ldImm 0 0) (by decide) rfl rfl, by decide⟩,
    ⟨_, .executed .cls (by decide) rfl rfl, by decide⟩, ⟨_, .quit 5 rfl rfl, by decide⟩⟩
/-- Cycles in which no call fails: with a framebuffer to hand over, without one, and after a wait step. -/
theorem witness_CycleCompletesWhenNothingFails :
    (∃ t, ReachesRender (at200 0x00E0) t ∧ t.dirty = true ∧ t.displayAnswer = .ok ∧ t.pollAnswer = .noEvent) ∧
      (∃ t, ReachesRender (at200 0x6000) t ∧ t.dirty = false ∧ t.pollAnswer = .noEvent) ∧
      ∃ t, ReachesRender (suspended (.key 15)) t ∧ t.dirty = false ∧ t.pollAnswer = .noEvent :=
  ⟨⟨_, .executed .cls (by decide) rfl rfl, by decide⟩, ⟨_, .executed (.ldImm 0 0) (by decide) rfl rfl, by decide⟩,
    ⟨_, .key 5 15 rfl rfl, by decide⟩⟩
/-- A step that ends the run and one that does not. -/
theorem witness_ExitReleasesDisplayOnce :
    (∃ t, step base = .next t ∧ t.mode = .stopped (.fault (.decodeError 0x200 0x0000))) ∧
      ∃ t, step (at200 0x6000) = .next t ∧ t.mode = .running :=
  ⟨⟨_, rfl, by decide⟩, ⟨_, rfl, by decide⟩⟩
theorem witness_ClockNeverRunsBackward :
    (∃ t, step (at200 0x6000) = .next t ∧ t.mode = .running) ∧ ∃ t, step (at200 0xF50A) = .next t ∧ t.mode ≠ .running :=
  ⟨⟨_, rfl, by decide⟩, ⟨_, rfl, by decide⟩⟩
theorem witness_ResetInstallsFont : defaultFont.length = 80 ∧ (List.replicate 80 (0xFF : Byte)).length = 80 := by decide
theorem witness_LoadPlacesRom :
    base.mem.wf = true ∧ (List.replicate 3584 (0xFF : Byte)).length ≤ 3584 ∧ 3584 < (List.replicate 3585 (0xFF : Byte)).length := by
  rw [List.length_replicate, List.length_replicate]; decide
theorem witness_BootEntersExclusiveMode :
    State.mode { base with exclusive := false } = .running ∧ State.exclusive { base with exclusive := false } = false ∧
      ([] : List Byte).length ≤ 3584 ∧ State.displayAnswer { base with exclusive := false } = .ok ∧
      State.displayAnswer { base with exclusive := false, env := { base.env with display := ⟨[.error 7], 0⟩ } } = .error 7 ∧
      3584 < (List.replicate 3585 (0xFF : Byte)).length := by
  refine ⟨by decide, by decide, by decide, by decide, by decide, ?_⟩
  rw [List.length_replicate]; decide
theorem witness_FetchWordRunsNext :
    State.reset.mem.wf = true ∧ decode (BitVec.ofNat 16 0xFF65) = .ok (.ldRegs 15) := by decide
theorem witness_InvariantAtReset : Config.minTickInterval ≤ 16600000 ∧ Config.minTickInterval ≤ 16666667 := by decide

/-- `base` with a word in memory meets the invariant. -/
theorem at200_inv (op : Opcode) (h : (at200 op).mem.wf = true) : (at200 op).Inv where
  mem_wf := h
  pc_le := by show (0x200 : Addr).toNat ≤ 0x10FE; decide
  sp_le := Nat.zero_le 16
  returns_le := fun _ hk => absurd hk (Nat.not_lt_zero _)
  one_key := by
    intro j k hj
    exact absurd hj (by simp [at200, base, State.placeAtPc, State.pressed, State.reset])
  tick_le := Nat.le_refl 0
  interval_ge := Nat.le_refl _
  waiting_pc := by intro x h; cases h
  clean := fun _ => rfl
  stopped_left := by intro o h; cases h
theorem witness_InvariantKept : (at200 0x6000).Inv ∧ ∃ t, step (at200 0x6000) = .next t ∧ t.mode = .running :=
  ⟨at200_inv _ (by decide), _, rfl, by decide⟩
theorem witness_StackStaysBounded :
    State.sp { at200 0x2300 with sp := 15 } ≤ 16 ∧ (∃ t, step { at200 0x2300 with sp := 15 } = .next t ∧ t.sp = 16) ∧
      State.sp { base with sp := 16 } = 16 ∧ base.sp = 0 :=
  ⟨by decide, ⟨_, rfl, by decide⟩, by decide, by decide⟩
theorem witness_TimersBoundedByClock : (at200 0x6000).Inv ∧ ∃ t, RunNoTimerWrite (at200 0x6000) t ∧ t.pc = 0x202 := by
  refine ⟨at200_inv _ (by decide), _, .step (.refl _) rfl ?_, by decide⟩
  intro i hi
  have : (at200 0x6000).instrNow = some (.ldImm 0 0) := by decide
  rw [this] at hi
  cases hi
  constructor <;> (rintro ⟨x, h⟩; cases h)
theorem witness_RegistersChangeOnlyWhereNamed :
    (∃ t, exec (.ldImm 3 0x12) base = .next t ∧ t.reg 3 ≠ base.reg 3) ∧
      ∃ t, exec (.addReg 0 0) (base.setReg 0 0x80) = .next t ∧ t.reg vf ≠ (base.setReg 0 0x80).reg vf :=
  ⟨⟨_, rfl, by decide⟩, ⟨_, rfl, by decide⟩⟩
theorem witness_FlagsAreZeroOrOne :
    (Instr.shl 0 0).writesFlag = true ∧ base.mode = .running ∧ ∃ t, exec (.shl 0 0) base = .next t ∧ ∀ o, t.mode ≠ .stopped o :=
  ⟨by decide, by decide, _, rfl, by intro o h; cases h⟩
/-- `6000` writes none of the state named. -/
theorem witness_OnlyNamedInstructionsWrite :
    (∃ t, exec (.ldImm 0 0) base = .next t) ∧ ¬ (Instr.ldImm 0 0).storesMemory ∧ ¬ (Instr.ldImm 0 0).writesFb ∧
      ¬ (Instr.ldImm 0 0).usesStack ∧ ¬ (Instr.ldImm 0 0).writesIndex ∧ ¬ (Instr.ldImm 0 0).writesDT ∧
      ¬ (Instr.ldImm 0 0).writesST := by
  refine ⟨⟨_, rfl⟩, ?_, ?_, ?_, ?_, ?_, ?_⟩
  · rintro ⟨x, h | h⟩ <;> cases h
  · rintro (h | ⟨x, y, n, h⟩) <;> cases h
  · rintro (h | ⟨a, h⟩) <;> cases h
  · rintro (⟨a, h⟩ | ⟨x, h | h⟩) <;> cases h
  · rintro ⟨x, h⟩; cases h
  · rintro ⟨x, h⟩; cases h
/-- A pending Quit, and a step that ends with one that its poll or its wait answered. -/
theorem witness_HaltNeverCleared :
    (State.halt { base with halt := true } = true ∧
      ∃ t, step { base with halt := true } = .next t ∧ t.mode = .stopped .quit) ∧
    (∃ t, step { at200 0x6000 with env := { base.env with polls := ⟨[.quit], 0⟩ } } = .next t ∧ t.halt = true) ∧
    ∃ t, step (suspended .quit) = .next t ∧ t.halt = true :=
  ⟨⟨by decide, _, rfl, by decide⟩, ⟨_, rfl, by decide⟩, _, rfl, by decide⟩
theorem witness_CanonicalMemoriesEqual :
    Memory.wf (Memory.write [] 0x300 7) = true ∧
      ∀ a, (Memory.write [] 0x300 7).read a = (Memory.write [] 0x300 7).read a :=
  ⟨by decide, fun _ => rfl⟩
/-- Two states that differ in a stale slot only, where a step runs. -/
theorem witness_StaleSlotsUnobservable :
    SameButStaleSlots (at200 0x00E0) ((at200 0x00E0).setSlot 3 0x123) ∧
      ((at200 0x00E0).setSlot 3 0x123).slot 3 ≠ (at200 0x00E0).slot 3 ∧ ∃ t, step (at200 0x00E0) = .next t ∧ t.mode = .running :=
  ⟨⟨rfl, fun _ hk => absurd hk (Nat.not_lt_zero _)⟩, by decide, _, rfl, by decide⟩

end Sys2Proof.Tests
end

section
/-! Proofs about the stack (10_state.md R27, R28): what the end of a run and the sub-steps around execute leave unchanged,
the branches of `2nnn` and `00EE`, and the bound on the stack pointer. -/

namespace Sys2Proof.Machine

/-! ## What only instructions write -/

/-- `t` agrees with `s` on the state that sub-steps other than execute and advance leave unchanged: memory, the general
registers, `I`, `pc`, the stack and the framebuffer. -/
structure SameInstrState (s t : State) : Prop where
  mem : t.mem = s.mem
  V : t.V = s.V
  I : t.I = s.I
  pc : t.pc = s.pc
  stack : t.stack = s.stack
  sp : t.sp = s.sp
  fb : t.fb = s.fb

theorem SameInstrState.refl (s : State) : SameInstrState s s := ⟨rfl, rfl, rfl, rfl, rfl, rfl, rfl⟩

theorem SameInstrState.trans {s t u : State} (h : SameInstrState s t) (k : SameInstrState t u) : SameInstrState s u :=
  ⟨k.mem.trans h.mem, k.V.trans h.V, k.I.trans h.I, k.pc.trans h.pc, k.stack.trans h.stack, k.sp.trans h.sp,
    k.fb.trans h.fb⟩

theorem endRun_sameInstrState (o : RunOutcome) (s : State) : SameInstrState s (endRun o s) := by
  cases h : s.exclusive
  · rw [endRun_free o s h]; exact ⟨rfl, rfl, rfl, rfl, rfl, rfl, rfl⟩
  · rw [endRun_held o s h]; exact ⟨rfl, rfl, rfl, rfl, rfl, rfl, rfl⟩

theorem raise_sameInstrState (r : FaultRecord) (s : State) : SameInstrState s (raise r s) :=
  endRun_sameInstrState (.fault r) s

theorem whileRunning_sameInstrState (s : State) (f : State → State) (hf : SameInstrState s (f s)) :
    SameInstrState s (s.whileRunning f) := by
  cases hm : s.mode with
  | running => rw [whileRunning_running s f hm]; exact hf
  | waitingForKey x => rw [whileRunning_waiting s f x hm]; exact .refl s
  | stopped o => rw [whileRunning_stopped s f o hm]; exact .refl s

theorem render_sameInstrState (s : State) : SameInstrState s (render s) := by
  have called : SameInstrState s (s.calledDisplay (.render s.fb)) := ⟨rfl, rfl, rfl, rfl, rfl, rfl, rfl⟩
  rcases render_spec s with ⟨-, h⟩ | ⟨-, -, h⟩ | ⟨-, e, -, h⟩
  · rw [h]; exact .refl s
  · rw [h]; exact ⟨rfl, rfl, rfl, rfl, rfl, rfl, rfl⟩
  · rw [h]; exact called.trans (raise_sameInstrState _ _)

theorem poll_sameInstrState (s : State) : SameInstrState s (poll s) := by
  have called : SameInstrState s s.calledPoll := ⟨rfl, rfl, rfl, rfl, rfl, rfl, rfl⟩
  rcases poll_spec s with ⟨-, h⟩ | ⟨j, -, h⟩ | ⟨-, h⟩ | ⟨e, -, h⟩
  · rw [h]; exact ⟨rfl, rfl, rfl, rfl, rfl, rfl, rfl⟩
  · rw [h]; exact ⟨rfl, rfl, rfl, rfl, rfl, rfl, rfl⟩
  · rw [h]; exact ⟨rfl, rfl, rfl, rfl, rfl, rfl, rfl⟩
  · rw [h]; exact called.trans (raise_sameInstrState _ _)

theorem timerStep_sameInstrState (s : State) : SameInstrState s (timerStep s) := by
  rcases timerStep_spec s with ⟨-, h⟩ | ⟨-, h⟩
  · rw [h]; exact ⟨rfl, rfl, rfl, rfl, rfl, rfl, rfl⟩
  · rw [h]; exact ⟨rfl, rfl, rfl, rfl, rfl, rfl, rfl⟩

theorem finishCycle_sameInstrState (s : State) : SameInstrState s (finishCycle s) :=
  ((render_sameInstrState s).trans (whileRunning_sameInstrState _ _ (poll_sameInstrState _))).trans
    (whileRunning_sameInstrState _ _ (timerStep_sameInstrState _))

/-! ## The stack across the wait step -/

theorem waitStep_stack (x : RegIdx) (s : State) : (waitStep x s).stack = s.stack ∧ (waitStep x s).sp = s.sp := by
  rcases waitStep_cases x s with ⟨-, h⟩ | ⟨k, -, h⟩ | ⟨-, h⟩ | ⟨e, -, h⟩
  · rw [h]; exact ⟨rfl, rfl⟩
  · have kept := finishCycle_sameInstrState
      { s.calledWait.setReg x (BitVec.ofNat 8 k.val) with pc := s.pc + 2, mode := .running }
    rw [h]; exact ⟨kept.stack, kept.sp⟩
  · have kept := finishCycle_sameInstrState { s.calledWait with halt := true, pc := s.pc + 2, mode := .running }
    rw [h]; exact ⟨kept.stack, kept.sp⟩
  · have kept := raise_sameInstrState (.collaboratorError .wait e) s.calledWait
    rw [h]; exact ⟨kept.stack, kept.sp⟩

/-! ## The branches of `2nnn` and `00EE` (R130, R131) -/

theorem exec_call_of_full (a : Addr) (s : State) (h : 16 ≤ s.sp) :
    exec (.call a) s = .next (raise (.stackOverflow s.pc (encode (.call a)) .call s.sp) s) := if_pos h

theorem exec_call_of_room (a : Addr) (s : State) (h : s.sp < 16) :
    exec (.call a) s = .next (advance (.jump a) (s.push (s.pc + 2))) := if_neg (Nat.not_le.2 h)

theorem exec_ret_of_empty (s : State) (h : s.sp = 0) :
    exec .ret s = .next (raise (.stackUnderflow s.pc (encode .ret) .ret s.sp) s) := if_pos h

theorem exec_ret_of_nonempty (s : State) (h : s.sp ≠ 0) :
    exec .ret s = .next (advance (.jump s.top) s.pop) := if_neg h

/-! ## The stack across an instruction -/

theorem advance_stack (d : Dispatched) (s : State) : (advance d s).stack = s.stack ∧ (advance d s).sp = s.sp := by
  cases d <;> exact ⟨rfl, rfl⟩

theorem guardAccess_stack (i : Instr) (count : Nat) (s : State) (f : State → State)
    (hf : (f s).stack = s.stack ∧ (f s).sp = s.sp) :
    (guardAccess i count s f).stack = s.stack ∧ (guardAccess i count s f).sp = s.sp := by
  rcases guardAccess_cases i count s f with ⟨r, h⟩ | h
  · rw [h]; exact ⟨(raise_sameInstrState r s).stack, (raise_sameInstrState r s).sp⟩
  · rw [h]; exact hf

theorem keyTest_stack (i : Instr) (x : RegIdx) (want : Bool) (s : State) :
    (keyTest i x want s).stack = s.stack ∧ (keyTest i x want s).sp = s.sp := by
  rw [keyTest]
  split_ifs
  · exact advance_stack _ s
  · exact ⟨(raise_sameInstrState _ s).stack, (raise_sameInstrState _ s).sp⟩

/-- Only `2nnn` and `00EE` write the stack (R27). -/
theorem exec_stack_of_not_usesStack (i : Instr) (s t : State) (hi : ¬ i.usesStack) (he : exec i s = .next t) :
    t.stack = s.stack ∧ t.sp = s.sp := by
  cases i with
  | call a => exact absurd (.inr ⟨a, rfl⟩) hi
  | ret => exact absurd (.inl rfl) hi
  | skp x => cases he; exact keyTest_stack _ x true s
  | sknp x => cases he; exact keyTest_stack _ x false s
  | ldB x => cases he; exact guardAccess_stack _ _ s _ (advance_stack .next _)
  | stRegs x => cases he; exact guardAccess_stack _ _ s _ (advance_stack .next _)
  | ldRegs x => cases he; exact guardAccess_stack _ _ s _ (advance_stack .next _)
  | drw x y n => cases he; exact guardAccess_stack _ _ s _ (advance_stack .next _)
  | _ => cases he; exact advance_stack _ _

theorem exec_sp_le (i : Instr) (s t : State) (h : s.sp ≤ 16) (he : exec i s = .next t) : t.sp ≤ 16 := by
  by_cases hi : i.usesStack
  · rcases hi with rfl | ⟨a, rfl⟩
    · by_cases h0 : s.sp = 0
      · rw [exec_ret_of_empty s h0] at he
        cases he
        exact (raise_sameInstrState _ s).sp.trans_le h
      · rw [exec_ret_of_nonempty s h0] at he
        cases he
        exact (Nat.sub_le s.sp 1).trans h
    · by_cases hroom : s.sp < 16
      · rw [exec_call_of_room a s hroom] at he
        cases he
        exact hroom
      · rw [exec_call_of_full a s (Nat.not_lt.1 hroom)] at he
        cases he
        exact (raise_sameInstrState _ s).sp.trans_le h
  · exact (exec_stack_of_not_usesStack i s t hi he).2.trans_le h

/-! ## The stack across a step -/

/-- Every step keeps the bound on the stack pointer (R28): the sub-steps around execute leave `sp` alone, and a push is
made only below the bound. -/
theorem step_sp_le (s u : State) (h : s.sp ≤ 16) (hs : step s = .next u) : u.sp ≤ 16 := by
  rcases step_cases s u hs with ⟨x, -, rfl⟩ | ⟨-, -, rfl⟩ | ⟨-, -, r, -, rfl⟩ | ⟨-, -, i, t, -, he, rfl⟩
  · exact (waitStep_stack x s).2.trans_le h
  · exact (endRun_sameInstrState .quit s).sp.trans_le h
  · exact (raise_sameInstrState r s).sp.trans_le h
  · have kept := whileRunning_sameInstrState t finishCycle (finishCycle_sameInstrState t)
    exact kept.sp.trans_le (exec_sp_le i s t h he)

/-- Settles O51: the bound is kept by every kind of step, and both fatal cases are one `raise`, which leaves the stack. -/
theorem stackStaysBounded : Obligations.StackStaysBounded := by
  have fatal : ∀ (r : FaultRecord) (s : State), (raise r s).mode = .stopped (.fault r) ∧ (raise r s).sp = s.sp ∧
      (raise r s).stack = s.stack := fun r s =>
    ⟨(raise_faultsWith r s).1, (raise_sameInstrState r s).sp, (raise_sameInstrState r s).stack⟩
  refine ⟨step_sp_le, fun a s hfull => ?_, fun s hempty => ?_⟩
  · have overflow := exec_call_of_full a s hfull.ge
    rw [hfull] at overflow
    exact ⟨_, _, overflow, fatal _ s⟩
  · have underflow := exec_ret_of_empty s hempty
    rw [hempty] at underflow
    exact ⟨_, _, underflow, fatal _ s⟩

end Sys2Proof.Machine
end

section
/-! Proofs about the loader (20_memory.md R55): its two branches, and what every byte reads as after a ROM was placed. -/

namespace Sys2Proof.Machine

theorem load_of_fits (bytes : List Byte) (s : State) (h : bytes.length ≤ 3584) :
    load bytes s = { s with mem := s.mem.writeBytes 0x200 bytes } := if_pos h

theorem load_of_oversize (bytes : List Byte) (s : State) (h : 3584 < bytes.length) :
    load bytes s = raise (.loadError bytes.length) s := if_neg (Nat.not_le.2 h)

/-- A ROM that fits ends at or below the top of memory, so the load drops no byte and touches none outside it. -/
theorem byte_load_of_fits (bytes : List Byte) (s : State) (a : Nat) (hmem : s.mem.wf = true)
    (h : bytes.length ≤ 3584) :
    (load bytes s).byte a =
      if 0x200 ≤ a ∧ a < 0x200 + bytes.length then bytes.getD (a - 0x200) 0 else s.byte a := by
  have below_top : 0x200 + bytes.length ≤ 4096 := Nat.add_le_add_left h 0x200
  rw [load_of_fits bytes s h]
  exact read_writeBytes bytes s.mem 0x200 a hmem below_top

/-- Settles O46: a ROM that fits is one `writeBytes` into canonical memory, and one that does not is one `raise`, which
leaves memory alone. -/
theorem loadPlacesRom : Obligations.LoadPlacesRom := by
  intro bytes s hmem
  refine ⟨fun hfits => ⟨fun k hk => ?_, fun a houtside => ?_, ?_⟩, fun hover => ?_⟩
  · rw [byte_load_of_fits bytes s _ hmem hfits, if_pos (by omega), Nat.add_sub_cancel_left]
  · rw [byte_load_of_fits bytes s a hmem hfits, if_neg (by omega)]
  · rw [load_of_fits bytes s hfits]
  · rw [load_of_oversize bytes s hover]
    exact ⟨raise_faultsWith _ s, byte_congr (raise_sameInstrState _ s).mem⟩

end Sys2Proof.Machine
end

section
/-! Proofs about the advance (40_execution_cycle.md R95, R96): the exact additions on a pc that can be fetched from, and the
cycle that suspends the core. -/

namespace Sys2Proof.Machine

/-- A pc that can be fetched from is far below the top of its 16 bits, so a small advance does not wrap (R26, R95). -/
theorem toNat_add_of_fetchable (pc d : Addr) (hpc : pc.toNat ≤ 0xFFE) (hd : d.toNat ≤ 4) :
    (pc + d).toNat = pc.toNat + d.toNat :=
  BitVec.toNat_add_of_lt (by omega)

/-- A cycle whose instruction suspends the core ends there: sub-steps 6 to 8 do not run in it (R95, R96). -/
theorem step_of_suspending (s t : State) (i : Instr) (x : RegIdx) (hi : s.instrNow = some i) (he : exec i s = .next t)
    (ht : t.mode = .waitingForKey x) : step s = .next t := by
  obtain ⟨hmode, hhalt, hfetch⟩ := (instrNow_eq_some s i).1 hi
  rw [step_executed s i t hmode hhalt hfetch he, whileRunning_waiting t finishCycle x ht]

/-- Settles O35: the additions are exact on a fetchable pc, a suspending cycle stops before sub-steps 6 to 8, and the wait
step that is answered by a key or by Quit reaches them. -/
theorem advanceIsExact : Obligations.AdvanceIsExact := by
  intro s
  refine ⟨fun hpc => ⟨?_, ?_⟩, fun _ => rfl, fun x => ⟨rfl, fun i hi he => ?_⟩,
    fun x hwait => ⟨fun k hkey => ?_, fun hquit => ?_⟩, rfl, rfl⟩
  · exact toNat_add_of_fetchable s.pc 2 hpc (by decide)
  · exact toNat_add_of_fetchable s.pc 4 hpc (by decide)
  · exact step_of_suspending s _ i x hi he rfl
  · exact (reachesRender_spec s _ (.key x k hwait hkey)).1
  · exact (reachesRender_spec s _ (.quit x hwait hquit)).1

end Sys2Proof.Machine
end

section
/-! Proofs about the loads and adds of an immediate (41_alu.md R111, R112): their words, and the rule for every instruction
that writes one register and falls through. -/

namespace Sys2Proof.Machine

theorem encodes_ldImm (x : RegIdx) (nn : Byte) : Encodes (wordXNN 0x6#4 x nn) (.ldImm x nn) :=
  ⟨by simp [decode], rfl⟩

theorem encodes_addImm (x : RegIdx) (nn : Byte) : Encodes (wordXNN 0x7#4 x nn) (.addImm x nn) :=
  ⟨by simp [decode], rfl⟩

/-- Writing one register and falling through is all that `WritesReg` asks for: the register file and the pc are the only
fields touched. -/
theorem writesReg_of_exec (i : Instr) (s : State) (x : RegIdx) (v : Byte)
    (he : exec i s = .next (advance .next (s.setReg x v))) : WritesReg i s x v := by
  have others_kept : ∀ r, r ≠ x → (advance .next (s.setReg x v)).reg r = s.reg r := reg_setReg_other s x v
  exact ⟨_, he, reg_setReg_same s x v, others_kept, rfl, fun _ => rfl, rfl⟩

/-- The byte sum is the exact sum modulo 256 (R112, R117). -/
theorem ofNat_sum_mod (a b : Byte) : BitVec.ofNat 8 ((a.toNat + b.toNat) % 256) = a + b :=
  BitVec.eq_of_toNat_eq (by simp)

/-- Settles O6: both words have the format XNN, and both instructions write `V[x]` and fall through. -/
theorem loadAndAddImmediate : Obligations.LoadAndAddImmediate := by
  intro x nn s
  rw [ofNat_sum_mod]
  exact ⟨encodes_ldImm x nn, writesReg_of_exec _ s x nn rfl, encodes_addImm x nn, writesReg_of_exec _ s x _ rfl⟩

end Sys2Proof.Machine
end

section
/-! Proofs about the skips on an immediate (43_skips.md R141, R142): their words, and the rule for every instruction that
only skips on a condition. -/

namespace Sys2Proof.Machine

theorem encodes_seImm (x : RegIdx) (nn : Byte) : Encodes (wordXNN 0x3#4 x nn) (.seImm x nn) :=
  ⟨by simp [decode], rfl⟩

theorem encodes_sneImm (x : RegIdx) (nn : Byte) : Encodes (wordXNN 0x4#4 x nn) (.sneImm x nn) :=
  ⟨by simp [decode], rfl⟩

/-- A conditional skip touches the pc alone (R95, R140). -/
theorem advance_skipIf (c : Prop) [Decidable c] (s : State) :
    advance (skipIf (decide c)) s = { s with pc := if c then s.pc + 4 else s.pc + 2 } := by
  by_cases hc : c
  · rw [decide_eq_true hc, if_pos hc]; rfl
  · rw [decide_eq_false hc, if_neg hc]; rfl

theorem setsPcOnly_of_skipIf (i : Instr) (s : State) (c : Prop) [Decidable c]
    (he : exec i s = .next (advance (skipIf (decide c)) s)) :
    SetsPcOnly i s (if c then s.pc + 4 else s.pc + 2) :=
  he.trans (congrArg _ (advance_skipIf c s))

/-- The rule for a skip on a condition that fails. -/
theorem setsPcOnly_of_skipIf_not (i : Instr) (s : State) (c : Prop) [Decidable c]
    (he : exec i s = .next (advance (skipIf (decide (¬ c))) s)) :
    SetsPcOnly i s (if c then s.pc + 2 else s.pc + 4) := by
  rw [← ite_not]
  exact setsPcOnly_of_skipIf i s (¬ c) he

/-- Settles O15: both words have the format XNN, and the two instructions skip on a condition and on its negation. -/
theorem skipOnImmediate : Obligations.SkipOnImmediate := by
  intro x nn s
  exact ⟨encodes_seImm x nn, encodes_sneImm x nn, setsPcOnly_of_skipIf _ s (s.reg x = nn) rfl,
    setsPcOnly_of_skipIf_not _ s (s.reg x = nn) rfl⟩

end Sys2Proof.Machine
end

section
/-! Proofs about the load of the index register (44_index_memory.md R150): the word of `Annn`, and what it writes. -/

namespace Sys2Proof.Machine

/-- The format NNN on a 12-bit operand: widening it to an address loses no bit of the word (R71, R72). -/
theorem wordNNN_addrOfNNN (f : Nibble) (a : BitVec 12) : wordNNN f (addrOfNNN a) = f ++ a :=
  congrArg (f ++ ·) (setWidth_addrOfNNN a)

theorem encodes_ldI (a : BitVec 12) : Encodes (0xA#4 ++ a) (.ldI (addrOfNNN a)) := by
  rw [← wordNNN_addrOfNNN]
  exact ⟨by simp [decode], rfl⟩

/-- `Annn` writes `I` and falls through. -/
theorem exec_ldI (nnn : Addr) (s : State) : exec (.ldI nnn) s = .next { s with I := nnn, pc := s.pc + 2 } := rfl

/-- Settles O18: every 12-bit value has its word in the format NNN, and the instruction writes `I` and the pc alone. -/
theorem loadIndex : Obligations.LoadIndex := by
  intro a s
  exact ⟨encodes_ldI a, exec_ldI _ s⟩

end Sys2Proof.Machine
end

section
/-! Proofs about the decoder and the encoder (30_encoding.md R70 to R76): the two round trips, and the decoder against the
catalogue of masks and matches. -/

namespace Sys2Proof

/-! ## From an instruction to its word and back -/

theorem ofNat_height_toNat (n : Nat) (h : wfHeight n = true) : (BitVec.ofNat 4 n).toNat = n := by
  simp only [wfHeight, decide_eq_true_eq] at h
  exact Nat.mod_eq_of_lt (by omega)

/-- The fields of a format give back what was put into them, so that the decoder finds the family, the sub-field and the
operands of the instruction it was given. -/
theorem decode_encode (i : Instr) (h : i.wf = true) : decode (encode i) = .ok i := by
  cases i with
  | cls => rfl
  | ret => rfl
  | jp nnn => simp [encode, decode, addrOfNNN_setWidth nnn h]
  | call nnn => simp [encode, decode, addrOfNNN_setWidth nnn h]
  | ldI nnn => simp [encode, decode, addrOfNNN_setWidth nnn h]
  | jpV0 nnn => simp [encode, decode, addrOfNNN_setWidth nnn h]
  | drw x y n => simp [encode, decode, ofNat_height_toNat n h, -BitVec.toNat_ofNat]
  | _ => simp [encode, decode, decodeAlu, decodeMisc]

/-! ## From a word to its instruction and back -/

theorem encode_of_decodeAlu {op : Opcode} {x y : RegIdx} {n : Nibble} {i : Instr} (h : decodeAlu op x y n = .ok i) :
    i.wf = true ∧ encode i = wordXYN 0x8#4 x y n := by
  simp only [decodeAlu] at h
  split_ifs at h with h0 h1 h2 h3 h4 h5 h6 h7 hE <;> cases h <;> exact ⟨rfl, by simp only [encode, *]⟩

theorem encode_of_decodeMisc {op : Opcode} {x : RegIdx} {nn : Byte} {i : Instr} (h : decodeMisc op x nn = .ok i) :
    i.wf = true ∧ encode i = wordXNN 0xF#4 x nn := by
  simp only [decodeMisc] at h
  split_ifs at h <;> cases h <;> exact ⟨rfl, by simp only [encode, *]⟩

/-- No bit of a legal word is dropped: the fields that the decoder reads are all the fields of the word's format. -/
theorem encode_of_decode {op : Opcode} {i : Instr} (h : decode op = .ok i) : i.wf = true ∧ encode i = op := by
  have nnn := wordNNN_fields op
  have xnn := wordXNN_fields op
  have xyn := wordXYN_fields op
  have addr_wf := wfAddr_addrOfNNN (opNNN op)
  rcases nibble_cases (opFamily op) with
    hf | hf | hf | hf | hf | hf | hf | hf | hf | hf | hf | hf | hf | hf | hf | hf <;>
  simp only [decode, hf, BitVec.reduceEq, if_true, if_false] at h <;>
  rw [hf] at nnn xnn xyn
  · split_ifs at h with hcls hret <;> cases h
    · exact ⟨rfl, hcls.symm⟩
    · exact ⟨rfl, hret.symm⟩
  · cases h; exact ⟨addr_wf, nnn⟩
  · cases h; exact ⟨addr_wf, nnn⟩
  · cases h; exact ⟨rfl, xnn⟩
  · cases h; exact ⟨rfl, xnn⟩
  · split_ifs at h with hn
    cases h
    rw [hn] at xyn; exact ⟨rfl, xyn⟩
  · cases h; exact ⟨rfl, xnn⟩
  · cases h; exact ⟨rfl, xnn⟩
  · obtain ⟨hwf, he⟩ := encode_of_decodeAlu h
    exact ⟨hwf, he.trans xyn⟩
  · split_ifs at h with hn
    cases h
    rw [hn] at xyn; exact ⟨rfl, xyn⟩
  · cases h; exact ⟨addr_wf, nnn⟩
  · cases h; exact ⟨addr_wf, nnn⟩
  · cases h; exact ⟨rfl, xnn⟩
  · cases h
    have height : wfHeight (opN op).toNat = true := decide_eq_true (Nat.le_of_lt_succ (opN op).isLt)
    exact ⟨height, by rw [encode, BitVec.ofNat_toNat, BitVec.setWidth_eq, xyn]⟩
  · split_ifs at h with hskp hsknp <;> cases h
    · rw [hskp] at xnn; exact ⟨rfl, xnn⟩
    · rw [hsknp] at xnn; exact ⟨rfl, xnn⟩
  · obtain ⟨hwf, he⟩ := encode_of_decodeMisc h
    exact ⟨hwf, he.trans xnn⟩

/-- The word of a well-formed instruction, and the instruction of that word. -/
theorem encodes_of_wf (i : Instr) (h : i.wf = true) : Machine.Encodes (encode i) i := ⟨decode_encode i h, rfl⟩

/-- Settles O1: each format gives its fields back. -/
theorem decodeOfEncode : Obligations.DecodeOfEncode := decode_encode

/-- Settles O2: each family's words are put together again from the fields its instructions keep. -/
theorem encodeOfDecode : Obligations.EncodeOfDecode := fun _ _ => encode_of_decode

/-! ## The catalogue -/

open Laws.FitsRow in
/-- The encoding of every instruction is selected by the instruction's own row (R73). -/
theorem fitsRow (i : Instr) : Statement i :=
  Instr.casesOn (motive := Statement) i cls ret jp call seImm sneImm seReg ldImm addImm ldReg orReg andReg xorReg addReg
    subReg shr subn shl sneReg ldI jpV0 rnd drw skp sknp ldVxDT ldVxK ldDTVx ldSTVx addI ldF ldB stRegs ldRegs

/-- A word that decodes is selected by the row of its instruction. -/
theorem exists_row_of_decode {op : Opcode} {i : Instr} (h : decode op = .ok i) :
    ∃ r ∈ opcodeTable, r.selects op = true := by
  obtain ⟨r, hr, hs⟩ := fitsRow i
  rw [(encode_of_decode h).2] at hs
  exact ⟨r, List.mem_of_getElem? hr, hs⟩

/-- What a field that the row's mask keeps whole must be. -/
theorem field_of_selects {r : OpcodeRow} {op : Opcode} (h : r.selects op = true) (lo len : Nat)
    (hm : r.mask.extractLsb' lo len = BitVec.allOnes len) : op.extractLsb' lo len = r.value.extractLsb' lo len := by
  rw [← extractLsb'_mask op r.mask lo len hm, eq_of_beq h]

/-- The families whose family nibble alone selects the instruction. -/
def plainFamilies : List Nibble := [0x1, 0x2, 0x3, 0x4, 0x6, 0x7, 0xA, 0xB, 0xC, 0xD]

/-- The families with the low nibbles that select an instruction in them. -/
def nibbleFamilies : List (Nibble × Nibble) :=
  [(0x5, 0x0), (0x8, 0x0), (0x8, 0x1), (0x8, 0x2), (0x8, 0x3), (0x8, 0x4), (0x8, 0x5), (0x8, 0x6), (0x8, 0x7), (0x8, 0xE),
    (0x9, 0x0)]

/-- The families with the low bytes that select an instruction in them. -/
def byteFamilies : List (Nibble × Byte) :=
  [(0xE, 0x9E), (0xE, 0xA1), (0xF, 0x07), (0xF, 0x0A), (0xF, 0x15), (0xF, 0x18), (0xF, 0x1E), (0xF, 0x29), (0xF, 0x33),
    (0xF, 0x55), (0xF, 0x65)]

theorem decodes_of_plainFamily {op : Opcode} (h : opFamily op ∈ plainFamilies) : ∃ i, decode op = .ok i := by
  simp only [plainFamilies, List.mem_cons, List.not_mem_nil, or_false] at h
  rcases h with h | h | h | h | h | h | h | h | h | h <;> simp [decode, h]

theorem decodes_of_nibbleFamily {op : Opcode} (h : (opFamily op, opN op) ∈ nibbleFamilies) :
    ∃ i, decode op = .ok i := by
  simp only [nibbleFamilies, List.mem_cons, Prod.mk.injEq, List.not_mem_nil, or_false] at h
  rcases h with ⟨hf, hn⟩ | ⟨hf, hn⟩ | ⟨hf, hn⟩ | ⟨hf, hn⟩ | ⟨hf, hn⟩ | ⟨hf, hn⟩ | ⟨hf, hn⟩ | ⟨hf, hn⟩ | ⟨hf, hn⟩ |
    ⟨hf, hn⟩ | ⟨hf, hn⟩ <;> simp [decode, decodeAlu, hf, hn]

theorem decodes_of_byteFamily {op : Opcode} (h : (opFamily op, opNN op) ∈ byteFamilies) :
    ∃ i, decode op = .ok i := by
  simp only [byteFamilies, List.mem_cons, Prod.mk.injEq, List.not_mem_nil, or_false] at h
  rcases h with ⟨hf, hn⟩ | ⟨hf, hn⟩ | ⟨hf, hn⟩ | ⟨hf, hn⟩ | ⟨hf, hn⟩ | ⟨hf, hn⟩ | ⟨hf, hn⟩ | ⟨hf, hn⟩ | ⟨hf, hn⟩ |
    ⟨hf, hn⟩ | ⟨hf, hn⟩ <;> simp [decode, decodeMisc, hf, hn]

/-- The four kinds of rows: a fixed word, a family, a family with a low nibble, a family with a low byte (R71, R73). -/
theorem row_kinds : ∀ r ∈ opcodeTable,
    (r.mask = 0xFFFF#16 ∧ (r.value = 0x00E0#16 ∨ r.value = 0x00EE#16)) ∨
    (r.mask = 0xF000#16 ∧ opFamily r.value ∈ plainFamilies) ∨
    (r.mask = 0xF00F#16 ∧ (opFamily r.value, opN r.value) ∈ nibbleFamilies) ∨
    (r.mask = 0xF0FF#16 ∧ (opFamily r.value, opNN r.value) ∈ byteFamilies) := by
  decide

theorem decodes_of_row {r : OpcodeRow} {op : Opcode} (hr : r ∈ opcodeTable) (h : r.selects op = true) :
    ∃ i, decode op = .ok i := by
  have family : r.mask.extractLsb' 12 4 = BitVec.allOnes 4 → opFamily op = opFamily r.value := field_of_selects h 12 4
  rcases row_kinds r hr with ⟨hm, hv⟩ | ⟨hm, hv⟩ | ⟨hm, hv⟩ | ⟨hm, hv⟩
  · have whole : op = r.value := by
      rw [← eq_of_beq h, hm]
      exact (BitVec.and_allOnes).symm
    rcases hv with hv | hv
    · exact ⟨.cls, by rw [whole, hv]; rfl⟩
    · exact ⟨.ret, by rw [whole, hv]; rfl⟩
  · exact decodes_of_plainFamily (by rwa [family (by rw [hm]; rfl)])
  · have low : opN op = opN r.value := field_of_selects h 0 4 (by rw [hm]; rfl)
    exact decodes_of_nibbleFamily (by rwa [family (by rw [hm]; rfl), low])
  · have low : opNN op = opNN r.value := field_of_selects h 0 8 (by rw [hm]; rfl)
    exact decodes_of_byteFamily (by rwa [family (by rw [hm]; rfl), low])

/-- Settles O3: a row fixes the fields that the decoder branches on, and an instruction's own row selects its word. -/
theorem decodeFollowsCatalogue : Obligations.DecodeFollowsCatalogue := by
  intro op
  refine ⟨fun ⟨r, hr, hs⟩ => decodes_of_row hr hs, fun hnone => ?_⟩
  cases hd : decode op with
  | error r => rw [decode_error op r hd]
  | ok i => exact absurd (exists_row_of_decode hd) hnone

/-- Two different rows ask for different values of the bits that both masks keep. -/
theorem rows_conflict : ∀ r ∈ opcodeTable, ∀ r' ∈ opcodeTable, r.value &&& r'.mask = r'.value &&& r.mask → r = r' := by
  decide

/-- Settles O4: an opcode selected by two rows would agree with both on the bits that both masks keep. -/
theorem catalogueRowsDisjoint : Obligations.CatalogueRowsDisjoint := by
  intro op r r' hr hr' hs hs'
  refine rows_conflict r hr r' hr' ?_
  rw [← eq_of_beq hs, ← eq_of_beq hs', BitVec.and_assoc, BitVec.and_assoc, BitVec.and_comm r.mask]

/-- Settles O5: each word is a closed term that the decoder evaluates. -/
theorem wordsDecodeAsWritten : Obligations.WordsDecodeAsWritten := by
  unfold Obligations.WordsDecodeAsWritten
  decide

end Sys2Proof
end

section
/-! Proofs about execute (40_execution_cycle.md R94): the faults that an instruction can raise and the effects that it can
have, said once, and from them the rules about faults and about who writes what. -/

namespace Sys2Proof.Machine

/-! ## The end of a run, field by field (R191, R193) -/

@[simp] theorem endRun_mem (o : RunOutcome) (s : State) : (endRun o s).mem = s.mem :=
  (congrArg State.mem (endRun_frame o s) :)
@[simp] theorem endRun_V (o : RunOutcome) (s : State) : (endRun o s).V = s.V :=
  (congrArg State.V (endRun_frame o s) :)
@[simp] theorem endRun_I (o : RunOutcome) (s : State) : (endRun o s).I = s.I :=
  (congrArg State.I (endRun_frame o s) :)
@[simp] theorem endRun_pc (o : RunOutcome) (s : State) : (endRun o s).pc = s.pc :=
  (congrArg State.pc (endRun_frame o s) :)
@[simp] theorem endRun_stack (o : RunOutcome) (s : State) : (endRun o s).stack = s.stack :=
  (congrArg State.stack (endRun_frame o s) :)
@[simp] theorem endRun_sp (o : RunOutcome) (s : State) : (endRun o s).sp = s.sp :=
  (congrArg State.sp (endRun_frame o s) :)
@[simp] theorem endRun_DT (o : RunOutcome) (s : State) : (endRun o s).DT = s.DT :=
  (congrArg State.DT (endRun_frame o s) :)
@[simp] theorem endRun_ST (o : RunOutcome) (s : State) : (endRun o s).ST = s.ST :=
  (congrArg State.ST (endRun_frame o s) :)
@[simp] theorem endRun_lastTick (o : RunOutcome) (s : State) : (endRun o s).lastTick = s.lastTick :=
  (congrArg State.lastTick (endRun_frame o s) :)
@[simp] theorem endRun_fb (o : RunOutcome) (s : State) : (endRun o s).fb = s.fb :=
  (congrArg State.fb (endRun_frame o s) :)
@[simp] theorem endRun_dirty (o : RunOutcome) (s : State) : (endRun o s).dirty = s.dirty :=
  (congrArg State.dirty (endRun_frame o s) :)
@[simp] theorem endRun_keys (o : RunOutcome) (s : State) : (endRun o s).keys = s.keys :=
  (congrArg State.keys (endRun_frame o s) :)
@[simp] theorem endRun_halt (o : RunOutcome) (s : State) : (endRun o s).halt = s.halt :=
  (congrArg State.halt (endRun_frame o s) :)
@[simp] theorem endRun_tickInterval (o : RunOutcome) (s : State) : (endRun o s).env.tickInterval = s.env.tickInterval :=
  congrArg (·.env.tickInterval) (endRun_frame o s)
@[simp] theorem endRun_lastSample (o : RunOutcome) (s : State) : (endRun o s).env.lastSample = s.env.lastSample :=
  congrArg (·.env.lastSample) (endRun_frame o s)
@[simp] theorem endRun_exclusive (o : RunOutcome) (s : State) : (endRun o s).exclusive = false := (endRun_stops o s).2

/-- The exit sequence makes one call when the display is held, and none when it is not. -/
theorem endRun_log (o : RunOutcome) (s : State) :
    (endRun o s).log = (if s.exclusive = true then [.leaveExclusive] else []) ++ s.log := by
  rw [endRun]
  split_ifs <;> rfl

/-- A fault is one way to end the run. -/
theorem raise_eq_endRun (r : FaultRecord) (s : State) : raise r s = endRun (.fault r) s := rfl

theorem raise_mode (r : FaultRecord) (s : State) : (raise r s).mode = .stopped (.fault r) := (raise_faultsWith r s).1

/-! ## The faults and the effects of an instruction -/

/-- The fault `r` is one that the instruction `i` raises in the state `s` (R190, R195). -/
inductive InstrFault (i : Instr) (s : State) : FaultRecord → Prop where
  | overflow (a : Addr) (hi : i = .call a) (h : 16 ≤ s.sp) :
    InstrFault i s (.stackOverflow s.pc (encode i) .call s.sp)
  | underflow (hi : i = .ret) (h : s.sp = 0) : InstrFault i s (.stackUnderflow s.pc (encode i) .ret s.sp)
  | key (x : RegIdx) (hi : i = .skp x ∨ i = .sknp x) (h : 0xF < (s.reg x).toNat) :
    InstrFault i s (.keyIndexOutOfRange s.pc (encode i) (s.reg x))
  | access (hi : i.storesMemory ∨ (∃ x, i = .ldRegs x) ∨ ∃ x y n, i = .drw x y n) :
    InstrFault i s (.memoryOutOfBounds s.pc (encode i) (max s.I.toNat 0x1000))

/-- The state is one that the instruction `i`, past its checks, can leave of the state `s`: one constructor for each shape
of effect, with what it says of `i`. -/
inductive InstrEffect (i : Instr) (s : State) : State → Prop where
  | result (x : RegIdx) (v : Byte) (hx : i.dest x = true) (hf : i.writesFlag = false) :
    InstrEffect i s (advance .next (s.setReg x v))
  | random (x : RegIdx) (v : Byte) (hx : i.dest x = true) (hf : i.writesFlag = false) :
    InstrEffect i s (advance .next (s.calledRandom.setReg x v))
  | resultAndFlag (x : RegIdx) (v : Byte) (c : Bool) (hx : i.dest x = true) (hf : i.writesFlag = true) :
    InstrEffect i s (advance .next (s.setResultAndFlag x v c))
  | skip (c : Bool) (hf : i.writesFlag = false) : InstrEffect i s (advance (skipIf c) s)
  | jump (a : Addr) (ha : i.wf = true → a.toNat ≤ 0x10FE) (hf : i.writesFlag = false) :
    InstrEffect i s (advance (.jump a) s)
  | call (a : Addr) (hi : i = .call a) (h : s.sp < 16) : InstrEffect i s (advance (.jump a) (s.push (s.pc + 2)))
  | ret (hi : i = .ret) (h : s.sp ≠ 0) : InstrEffect i s (advance (.jump s.top) s.pop)
  | index (a : Addr) (hi : i.writesIndex) : InstrEffect i s (advance .next { s with I := a })
  | store (a : Nat) (bs : List Byte) (hi : i.storesMemory) :
    InstrEffect i s (advance .next { s with mem := s.mem.writeBytes a bs })
  | load (a : Nat) (x : RegIdx) (hi : i = .ldRegs x) :
    InstrEffect i s (advance .next { s with V := loadRegs s.mem a s.V (x.val + 1) })
  | clear (hi : i = .cls) : InstrEffect i s (advance .next { s with fb := Framebuffer.clear, dirty := true })
  | draw (fb : Framebuffer) (c : Bool) (hi : ∃ x y n, i = .drw x y n) :
    InstrEffect i s (advance .next ({ s with fb := fb, dirty := true }.setReg vf (flagByte c)))
  | delay (v : Byte) (hi : i.writesDT) : InstrEffect i s (advance .next { s with DT := v })
  | sound (v : Byte) (hi : i.writesST) : InstrEffect i s (advance .next { s with ST := v })
  | wait (x : RegIdx) (hi : i = .ldVxK x) : InstrEffect i s (advance (.wait x) s)

/-- The state `t` is what the instruction `i` answers from `s`: a fault of its own, or an effect. -/
def InstrAnswer (i : Instr) (s t : State) : Prop := (∃ r, InstrFault i s r ∧ t = raise r s) ∨ InstrEffect i s t

theorem guardAccess_answer (i : Instr) (count : Nat) (s : State) (f : State → State)
    (hi : i.storesMemory ∨ (∃ x, i = .ldRegs x) ∨ ∃ x y n, i = .drw x y n) (hf : InstrEffect i s (f s)) :
    InstrAnswer i s (guardAccess i count s f) := by
  rcases badAddr_spec s count with ⟨-, hin⟩ | ⟨-, hpos, hout⟩
  · rw [guardAccess_ok i count s f hin]
    exact .inr hf
  · rw [guardAccess_bad i count s f hpos hout]
    exact .inl ⟨_, .access hi, rfl⟩

theorem keyTest_answer (i : Instr) (x : RegIdx) (want : Bool) (s : State) (hi : i = .skp x ∨ i = .sknp x) :
    InstrAnswer i s (keyTest i x want s) := by
  rw [keyTest]
  split_ifs with h
  · refine .inr (.skip _ ?_)
    rcases hi with rfl | rfl <;> rfl
  · exact .inl ⟨_, .key x hi (Nat.not_lt.1 h), rfl⟩

theorem toNat_le_of_wfAddr {a : Addr} (h : wfAddr a = true) : a.toNat ≤ 0xFFF := of_decide_eq_true h

/-- A jump through `V0` does not wrap (D1, D2). -/
theorem toNat_indexedTarget (s : State) (a : Addr) (h : a.toNat ≤ 0xFFF) :
    (s.indexedTarget a).toNat = a.toNat + (s.reg 0).toNat := by
  have := (s.reg 0).isLt
  simp only [State.indexedTarget, zext16, BitVec.toNat_add, BitVec.toNat_setWidth]
  omega

/-- Every instruction answers one of its own faults or one of its own effects. -/
theorem exec_answer {i : Instr} {s t : State} (he : exec i s = .next t) : InstrAnswer i s t := by
  cases i with
  | cls => cases he; exact .inr (.clear rfl)
  | ret =>
    by_cases h : s.sp = 0
    · rw [exec_ret_of_empty s h] at he
      cases he; exact .inl ⟨_, .underflow rfl h, rfl⟩
    · rw [exec_ret_of_nonempty s h] at he
      cases he; exact .inr (.ret rfl h)
  | jp a => cases he; exact .inr (.jump a (fun hwf => (toNat_le_of_wfAddr hwf).trans (by decide)) rfl)
  | call a =>
    by_cases h : s.sp < 16
    · rw [exec_call_of_room a s h] at he
      cases he; exact .inr (.call a rfl h)
    · rw [exec_call_of_full a s (Nat.not_lt.1 h)] at he
      cases he; exact .inl ⟨_, .overflow a rfl (Nat.not_lt.1 h), rfl⟩
  | seImm x nn => cases he; exact .inr (.skip _ rfl)
  | sneImm x nn => cases he; exact .inr (.skip _ rfl)
  | seReg x y => cases he; exact .inr (.skip _ rfl)
  | sneReg x y => cases he; exact .inr (.skip _ rfl)
  | addReg x y => cases he; exact .inr (.resultAndFlag x _ _ (decide_eq_true rfl) rfl)
  | subReg x y => cases he; exact .inr (.resultAndFlag x _ _ (decide_eq_true rfl) rfl)
  | shr x y => cases he; exact .inr (.resultAndFlag x _ _ (decide_eq_true rfl) rfl)
  | subn x y => cases he; exact .inr (.resultAndFlag x _ _ (decide_eq_true rfl) rfl)
  | shl x y => cases he; exact .inr (.resultAndFlag x _ _ (decide_eq_true rfl) rfl)
  | ldI a => cases he; exact .inr (.index _ (.inl ⟨a, rfl⟩))
  | addI x => cases he; exact .inr (.index _ (.inr ⟨x, .inl rfl⟩))
  | ldF x => cases he; exact .inr (.index _ (.inr ⟨x, .inr rfl⟩))
  | jpV0 a =>
    cases he
    refine .inr (.jump _ (fun hwf => ?_) rfl)
    have := (s.reg 0).isLt
    have := toNat_le_of_wfAddr hwf
    rw [toNat_indexedTarget s a this]
    omega
  | rnd x nn => cases he; exact .inr (.random x _ (decide_eq_true rfl) rfl)
  | drw x y n => cases he; exact guardAccess_answer _ _ s _ (.inr (.inr ⟨x, y, n, rfl⟩)) (.draw _ _ ⟨x, y, n, rfl⟩)
  | skp x => cases he; exact keyTest_answer _ x true s (.inl rfl)
  | sknp x => cases he; exact keyTest_answer _ x false s (.inr rfl)
  | ldVxK x => cases he; exact .inr (.wait x rfl)
  | ldDTVx x => cases he; exact .inr (.delay _ ⟨x, rfl⟩)
  | ldSTVx x => cases he; exact .inr (.sound _ ⟨x, rfl⟩)
  | ldB x => cases he; exact guardAccess_answer _ _ s _ (.inl ⟨x, .inl rfl⟩) (.store _ _ ⟨x, .inl rfl⟩)
  | stRegs x => cases he; exact guardAccess_answer _ _ s _ (.inl ⟨x, .inr rfl⟩) (.store _ _ ⟨x, .inr rfl⟩)
  | ldRegs x => cases he; exact guardAccess_answer _ _ s _ (.inr (.inl ⟨x, rfl⟩)) (.load _ x rfl)
  | ldImm x nn => cases he; exact .inr (.result x _ (decide_eq_true rfl) rfl)
  | addImm x nn => cases he; exact .inr (.result x _ (decide_eq_true rfl) rfl)
  | ldReg x y => cases he; exact .inr (.result x _ (decide_eq_true rfl) rfl)
  | orReg x y => cases he; exact .inr (.result x _ (decide_eq_true rfl) rfl)
  | andReg x y => cases he; exact .inr (.result x _ (decide_eq_true rfl) rfl)
  | xorReg x y => cases he; exact .inr (.result x _ (decide_eq_true rfl) rfl)
  | ldVxDT x => cases he; exact .inr (.result x _ (decide_eq_true rfl) rfl)

/-! ## Faults in execute (R190, R191, R195) -/

theorem advance_skipIf_mode (c : Bool) (s : State) : (advance (skipIf c) s).mode = s.mode := by cases c <;> rfl

/-- Only `Fx0A` changes the mode, and it suspends the core (R95). -/
theorem InstrEffect.mode {i : Instr} {s t : State} (h : InstrEffect i s t) :
    t.mode = s.mode ∨ ∃ x, i = .ldVxK x ∧ t = { s with mode := .waitingForKey x } := by
  cases h with
  | wait x hi => exact .inr ⟨x, hi, rfl⟩
  | skip c => exact .inl (advance_skipIf_mode c s)
  | _ => exact .inl rfl

/-- A run that execute ended was ended by a fault of the instruction, raised in the state as it was. -/
theorem exec_stopped {i : Instr} {s t : State} {o : RunOutcome} (hm : s.mode = .running) (he : exec i s = .next t)
    (ht : t.mode = .stopped o) : ∃ r, InstrFault i s r ∧ t = raise r s ∧ o = .fault r := by
  rcases exec_answer he with ⟨r, hr, rfl⟩ | heff
  · rw [raise_mode] at ht
    exact ⟨r, hr, rfl, (Mode.stopped.inj ht).symm⟩
  · rcases heff.mode with h | ⟨x, -, rfl⟩
    · exact absurd (ht.symm.trans (h.trans hm)) (by simp)
    · cases ht

/-- Settles O36: the fault was raised in the state as it was. -/
theorem faultsArePrecise : Obligations.FaultsArePrecise := by
  intro i s t r hm he ht
  obtain ⟨r', -, rfl, hr⟩ := exec_stopped hm he ht
  cases hr
  exact raise_faultsWith r s

/-- Settles O37: the fault is one of the instruction's own. -/
theorem faultRecordsNameInstruction : Obligations.FaultRecordsNameInstruction := by
  intro i s t r hm hsp he ht
  obtain ⟨r', hfault, -, hr⟩ := exec_stopped hm he ht
  cases hr
  cases hfault with
  | overflow a hi h =>
    have hfull : s.sp = 16 := by omega
    exact .inl ⟨⟨a, hi⟩, hfull, by rw [hfull]⟩
  | underflow hi h => exact .inr (.inl ⟨hi, h, by rw [h]⟩)
  | key x hi h => exact .inr (.inr (.inl ⟨x, hi, h, rfl⟩))
  | access hi => exact .inr (.inr (.inr ⟨hi, rfl⟩))

/-! ## Which instruction writes what (R22 to R34, R52) -/

theorem reg_loadRegs (s : State) (a count : Nat) (r : RegIdx) :
    State.reg { s with V := loadRegs s.mem a s.V count } r = if r.val < count then s.byte (a + r.val) else s.reg r :=
  getElem_loadRegs s.mem a s.V count r.val r.isLt

/-- Settles O53: each shape of effect names the registers it writes. -/
theorem registersChangeOnlyWhereNamed : Obligations.RegistersChangeOnlyWhereNamed := by
  intro i s t r he hne
  rcases exec_answer he with ⟨f, -, rfl⟩ | heff
  · exact absurd (reg_congr (endRun_V _ s) r) hne
  have written : ∀ x v, i.dest x = true → (s.setReg x v).reg r ≠ s.reg r → i.dest r = true := by
    intro x v hx hne
    by_cases hr : r = x
    · rwa [hr]
    · exact absurd (reg_setReg_other s x v r hr) hne
  cases heff with
  | result x v hx => exact .inl (written x v hx hne)
  | random x v hx => exact .inl (written x v hx hne)
  | resultAndFlag x v c hx hf =>
    by_cases hr : r = vf
    · exact .inr ⟨hr, hf⟩
    · refine .inl (written x v hx fun h => hne ?_)
      exact (reg_setReg_other (s.setReg x v) vf (flagByte c) r hr).trans h
  | draw fb c hi =>
    obtain ⟨x, y, n, rfl⟩ := hi
    by_cases hr : r = vf
    · exact .inr ⟨hr, rfl⟩
    · exact absurd (reg_setReg_other _ vf (flagByte c) r hr) hne
  | load a x hi =>
    subst hi
    by_cases hr : r ≤ x
    · exact .inl (decide_eq_true hr)
    · refine absurd ((reg_loadRegs s a (x.val + 1) r).trans (if_neg fun h => hr ?_)) hne
      exact Nat.le_of_lt_succ h
  | skip c => cases c <;> exact absurd rfl hne
  | _ => exact absurd rfl hne

/-- Settles O54: the shapes of effect that write the flag write a `flagByte`. -/
theorem flagsAreZeroOrOne : Obligations.FlagsAreZeroOrOne := by
  intro i s t hflag hm he hgoes
  rcases exec_answer he with ⟨r, -, rfl⟩ | heff
  · exact absurd (raise_mode r s) (hgoes _)
  have written : ∀ (u : State) c, (u.setReg vf (flagByte c)).reg vf = 0 ∨ (u.setReg vf (flagByte c)).reg vf = 1 := by
    intro u c
    rw [reg_setReg_same]
    exact flagByte_zero_or_one c
  cases heff with
  | resultAndFlag x v c => exact written _ c
  | draw fb c => exact written _ c
  | result x v hx hf => rw [hf] at hflag; cases hflag
  | random x v hx hf => rw [hf] at hflag; cases hflag
  | skip c hf => rw [hf] at hflag; cases hflag
  | jump a ha hf => rw [hf] at hflag; cases hflag
  | call a hi => subst hi; cases hflag
  | ret hi => subst hi; cases hflag
  | index a hi => rcases hi with ⟨a, rfl⟩ | ⟨x, rfl | rfl⟩ <;> cases hflag
  | store a bs hi => obtain ⟨x, rfl | rfl⟩ := hi <;> cases hflag
  | load a x hi => subst hi; cases hflag
  | clear hi => subst hi; cases hflag
  | delay v hi => obtain ⟨x, rfl⟩ := hi; cases hflag
  | sound v hi => obtain ⟨x, rfl⟩ := hi; cases hflag
  | wait x hi => subst hi; cases hflag

/-- Settles O55: each shape of effect writes the state that its instruction is named for. -/
theorem onlyNamedInstructionsWrite : Obligations.OnlyNamedInstructionsWrite := by
  intro i s t he
  rcases exec_answer he with ⟨r, -, rfl⟩ | heff
  · simp [raise_eq_endRun]
  cases heff with
  | skip c => cases c <;> simp [skipIf]
  | clear hi => simp [Instr.writesFb, hi]
  | draw fb c hi => simp [Instr.writesFb, hi]
  | call a hi => simp [Instr.usesStack, hi]
  | ret hi => simp [Instr.usesStack, hi]
  | index a hi => simp [hi]
  | store a bs hi => simp [hi]
  | delay v hi => simp [hi]
  | sound v hi => simp [hi]
  | _ => simp

end Sys2Proof.Machine
end

section
/-! Proofs about register arithmetic (41_alu.md R113 to R121): the rule for every instruction that writes a result and a
flag, and the exact value of each operation. -/

namespace Sys2Proof.Machine

/-- Settles O7: each of the four writes one register and falls through. -/
theorem copyAndBitwise : Obligations.CopyAndBitwise := by
  intro x y s
  exact ⟨encodes_of_wf (.ldReg x y) rfl, encodes_of_wf (.orReg x y) rfl, encodes_of_wf (.andReg x y) rfl,
    encodes_of_wf (.xorReg x y) rfl, writesReg_of_exec _ s x _ rfl, writesReg_of_exec _ s x _ rfl,
    writesReg_of_exec _ s x _ rfl, writesReg_of_exec _ s x _ rfl⟩

/-- Writing a result and then a flag, and falling through, is all that `WritesRegAndFlag` asks for. -/
theorem writesRegAndFlag_of_exec (i : Instr) (s : State) (x : RegIdx) (v : Byte) (c : Bool) (f : Prop) (hc : c = true ↔ f)
    (he : exec i s = .next (advance .next (s.setResultAndFlag x v c))) : WritesRegAndFlag i s x v f := by
  have reads : ∀ r, (advance .next (s.setResultAndFlag x v c)).reg r =
      if r = vf then flagByte c else if r = x then v else s.reg r := reg_setResultAndFlag s x v c
  refine ⟨_, he, fun hx => ?_, fun hf => ?_, fun hf => ?_, fun r hx hvf => ?_, rfl, fun _ => rfl, rfl⟩
  · rw [reads, if_neg hx, if_pos rfl]
  · rw [reads, if_pos rfl, hc.2 hf]; rfl
  · rw [reads, if_pos rfl, Bool.eq_false_iff.2 fun h => hf (hc.1 h)]; rfl
  · rw [reads, if_neg hvf, if_neg hx]

/-- The byte difference is the exact difference modulo 256 (R118, R120). -/
theorem ofNat_difference_mod (a b : Byte) : BitVec.ofNat 8 ((a.toNat + 256 - b.toNat) % 256) = a - b := by
  have := b.isLt
  apply BitVec.eq_of_toNat_eq
  rw [BitVec.toNat_ofNat, BitVec.toNat_sub]
  omega

theorem ofNat_half (a : Byte) : BitVec.ofNat 8 (a.toNat / 2) = a >>> 1 := by
  have := a.isLt
  apply BitVec.eq_of_toNat_eq
  rw [BitVec.toNat_ofNat, BitVec.toNat_ushiftRight, Nat.shiftRight_eq_div_pow]
  omega

theorem ofNat_double_mod (a : Byte) : BitVec.ofNat 8 (a.toNat * 2 % 256) = a <<< 1 := by
  apply BitVec.eq_of_toNat_eq
  rw [BitVec.toNat_ofNat, BitVec.toNat_shiftLeft, Nat.shiftLeft_eq]
  omega

theorem lowBit_iff (a : Byte) : lowBit a = true ↔ a.toNat % 2 = 1 := by
  rw [lowBit, BitVec.getLsbD, Nat.testBit_zero, decide_eq_true_eq]

theorem highBit_iff (a : Byte) : highBit a = true ↔ 128 ≤ a.toNat := by
  have := a.isLt
  rw [highBit, BitVec.getLsbD, Nat.testBit_eq_decide_div_mod_eq, decide_eq_true_eq]
  omega

/-- Settles O8: the sum and its carry are written as a result and a flag. -/
theorem addSetsCarry : Obligations.AddSetsCarry := by
  intro x y s
  rw [ofNat_sum_mod]
  exact ⟨encodes_of_wf (.addReg x y) rfl, writesRegAndFlag_of_exec _ s x _ _ _ decide_eq_true_iff rfl⟩

/-- Settles O9: both differences and their flags are written as a result and a flag. -/
theorem subtractSetsNoBorrow : Obligations.SubtractSetsNoBorrow := by
  intro x y s
  rw [ofNat_difference_mod, ofNat_difference_mod]
  exact ⟨encodes_of_wf (.subReg x y) rfl, encodes_of_wf (.subn x y) rfl,
    writesRegAndFlag_of_exec _ s x _ _ _ decide_eq_true_iff rfl,
    writesRegAndFlag_of_exec _ s x _ _ _ decide_eq_true_iff rfl⟩

/-- Settles O10: the bit shifted out is the lowest or the highest bit of `V[x]`. -/
theorem shiftsSetShiftedBit : Obligations.ShiftsSetShiftedBit := by
  intro x y s
  rw [ofNat_half, ofNat_double_mod]
  exact ⟨encodes_of_wf (.shr x y) rfl, encodes_of_wf (.shl x y) rfl,
    writesRegAndFlag_of_exec _ s x _ _ _ (lowBit_iff _) rfl, writesRegAndFlag_of_exec _ s x _ _ _ (highBit_iff _) rfl⟩

end Sys2Proof.Machine
end

section
/-! Proofs about control flow (42_control_flow.md R130 to R135) and the remaining skips (43_skips.md R143 to R147): jumps to
an exact target, the call and the return with their faults, and the tests of registers and of the latch. -/

namespace Sys2Proof.Machine

/-- Every 12-bit operand is admitted, and its word has the format NNN. -/
theorem encodes_wordNNN {f : Nibble} (a : BitVec 12) (i : Instr) (hwf : wfAddr (addrOfNNN a) = true → i.wf = true)
    (hw : encode i = wordNNN f (addrOfNNN a)) : Encodes (f ++ a) i := by
  rw [← wordNNN_addrOfNNN f a, ← hw]
  exact encodes_of_wf i (hwf (wfAddr_addrOfNNN a))

theorem toNat_addrOfNNN_le (a : BitVec 12) : (addrOfNNN a).toNat ≤ 0xFFF := toNat_le_of_wfAddr (wfAddr_addrOfNNN a)

theorem toNat_addrOfNNN (a : BitVec 12) : (addrOfNNN a).toNat = a.toNat := by
  rw [addrOfNNN, BitVec.toNat_setWidth_of_le (by decide)]

/-- Settles O11: `Bnnn` adds two numbers whose sum fits 16 bits. -/
theorem jumpsSetPcExactly : Obligations.JumpsSetPcExactly := by
  intro a s
  refine ⟨encodes_wordNNN a _ id rfl, rfl, encodes_wordNNN a _ id rfl, s.indexedTarget (addrOfNNN a), ?_, rfl⟩
  rw [toNat_indexedTarget s _ (toNat_addrOfNNN_le a), toNat_addrOfNNN]

/-- Settles O12: past the check a call is a push and a jump, and at 16 entries it is one `raise`. -/
theorem callPushesReturnAddress : Obligations.CallPushesReturnAddress := by
  intro a s
  have enc : Encodes (0x2#4 ++ a) (.call (addrOfNNN a)) := encodes_wordNNN a _ id rfl
  refine ⟨enc, fun hroom => ?_, fun hfull => ?_⟩
  · refine ⟨_, exec_call_of_room _ s hroom, ?_, fun k hk => ?_, rfl, rfl, fun _ => rfl, rfl⟩
    · exact (slot_push s _ s.sp).trans (if_pos ⟨rfl, hroom⟩)
    · exact (slot_push s _ k).trans (if_neg fun h => hk h.1)
  · refine ⟨_, exec_call_of_full _ s hfull.ge, ?_⟩
    rw [hfull, ← enc.2]
    exact raise_faultsWith _ s

/-- Settles O13: past the check a return is a pop and a jump to the slot's content, and at 0 entries it is one `raise`. -/
theorem returnPopsReturnAddress : Obligations.ReturnPopsReturnAddress := by
  refine ⟨encodes_of_wf .ret rfl, fun s => ⟨fun hne => ?_, fun hempty => ?_⟩⟩
  · exact ⟨_, exec_ret_of_nonempty s hne, rfl, rfl, fun _ => rfl, rfl⟩
  · refine ⟨_, exec_ret_of_empty s hempty, ?_⟩
    rw [hempty]
    exact raise_faultsWith _ s

/-- Settles O14: the return pops the slot that the call has just pushed. -/
theorem callThenReturnResumes : Obligations.CallThenReturnResumes := by
  intro a s hroom hpc
  obtain ⟨t, hcall, hslot, -, hsp, -, -, callFrame⟩ := (callPushesReturnAddress a s).2.1 hroom
  obtain ⟨u, hret, hupc, husp, -, retFrame⟩ := (returnPopsReturnAddress.2 t).1 (by omega)
  have sp_back : u.sp = s.sp := by omega
  refine ⟨t, u, hcall, hret, ?_, sp_back, ?_⟩
  · rw [hupc, hsp, Nat.add_sub_cancel, hslot]
    exact toNat_add_of_fetchable s.pc 2 hpc (by decide)
  · rw [← retFrame, ← sp_back] at callFrame
    exact callFrame

/-- A word of family 5 or 9 with another low nibble than 0 is refused (D32). -/
theorem decode_strict_nibble {f : Nibble} (x y : RegIdx) {n : Nibble} (hf : f = 0x5#4 ∨ f = 0x9#4) (hn : n ≠ 0x0#4) :
    decode (wordXYN f x y n) = .error (.noSuchInstruction (wordXYN f x y n)) := by
  rcases hf with rfl | rfl <;> simp [decode, hn]

/-- Settles O16: both instructions only skip on a condition, and the decoder asks for the low nibble 0. -/
theorem skipOnRegisters : Obligations.SkipOnRegisters := by
  intro x y s
  exact ⟨encodes_of_wf (.seReg x y) rfl, encodes_of_wf (.sneReg x y) rfl, setsPcOnly_of_skipIf _ s _ rfl,
    setsPcOnly_of_skipIf_not _ s _ rfl,
    fun n hn => ⟨decode_strict_nibble x y (.inl rfl) hn, decode_strict_nibble x y (.inr rfl) hn⟩⟩

/-- The key test of a value that names the latch entry `k` skips when the entry is the one wanted. -/
theorem keyTest_of_key (i : Instr) (x : RegIdx) (want : Bool) (s : State) (k : KeyCode) (hk : (s.reg x).toNat = k.val) :
    keyTest i x want s = advance (skipIf (decide (s.pressed k = want))) s := by
  have hlt : (s.reg x).toNat < 16 := hk ▸ k.isLt
  have entry : (⟨(s.reg x).toNat, hlt⟩ : KeyCode) = k := Fin.ext hk
  rw [keyTest, dif_pos hlt, entry]
  cases s.pressed k <;> cases want <;> rfl

theorem keyTest_of_large (i : Instr) (x : RegIdx) (want : Bool) (s : State) (h : 0xF < (s.reg x).toNat) :
    keyTest i x want s = raise (.keyIndexOutOfRange s.pc (encode i) (s.reg x)) s :=
  dif_neg (Nat.not_lt.2 h)

theorem exec_skp (x : RegIdx) (s : State) : exec (.skp x) s = .next (keyTest (.skp x) x true s) := rfl

theorem exec_sknp (x : RegIdx) (s : State) : exec (.sknp x) s = .next (keyTest (.sknp x) x false s) := rfl

/-- Settles O17: a value up to 0xF names a latch entry to skip on, and a greater one is one `raise`. -/
theorem skipOnKey : Obligations.SkipOnKey := by
  intro x s
  refine ⟨encodes_of_wf (.skp x) rfl, encodes_of_wf (.sknp x) rfl, fun k hk => ⟨?_, ?_⟩, fun hlarge => ⟨?_, ?_⟩⟩
  · apply setsPcOnly_of_skipIf
    rw [exec_skp, keyTest_of_key _ x true s k hk]
  · apply setsPcOnly_of_skipIf_not
    rw [exec_sknp, keyTest_of_key _ x false s k hk]
    simp only [Bool.not_eq_true]
  · rw [exec_skp, keyTest_of_large _ x true s hlarge]
    exact ⟨_, rfl, raise_faultsWith _ s⟩
  · rw [exec_sknp, keyTest_of_large _ x false s hlarge]
    exact ⟨_, rfl, raise_faultsWith _ s⟩

end Sys2Proof.Machine
end

section
/-! Proofs about the index register and memory (44_index_memory.md R151 to R156): exact addresses, the blocks of bytes that
are stored and loaded, and the bounds check before every access. -/

namespace Sys2Proof.Machine

theorem ofNat_addI (a : Addr) (v : Byte) : BitVec.ofNat 16 ((a.toNat + v.toNat) % 65536) = a + zext16 v := by
  have := v.isLt
  apply BitVec.eq_of_toNat_eq
  rw [BitVec.toNat_ofNat, BitVec.toNat_add, zext16, BitVec.toNat_setWidth_of_le (by decide), Nat.mod_mod]

theorem ofNat_glyph (v : Byte) : BitVec.ofNat 16 (0x050 + 5 * (v.toNat % 16)) = glyphAddr v := by
  have low_nibble : (zext16 v &&& 0xF).toNat = v.toNat % 16 := by
    rw [BitVec.toNat_and, zext16, BitVec.toNat_setWidth_of_le (by decide)]
    exact Nat.and_two_pow_sub_one_eq_mod v.toNat 4
  apply BitVec.eq_of_toNat_eq
  rw [glyphAddr, BitVec.toNat_add, BitVec.toNat_mul, low_nibble, BitVec.toNat_ofNat]
  rw [show (0x050 : Addr).toNat = 0x050 from rfl, show (5 : Addr).toNat = 5 from rfl]
  omega

/-- Settles O19: both addresses are the exact numbers, reduced to the 16 bits of `I`. -/
theorem addToIndexAndGlyph : Obligations.AddToIndexAndGlyph := by
  intro x s
  rw [ofNat_addI, ofNat_glyph]
  exact ⟨encodes_of_wf (.addI x) rfl, encodes_of_wf (.ldF x) rfl, rfl, rfl⟩

/-- An access above 0xFFF is one `raise`, made before any effect (R54). -/
theorem guardAccess_faultsWith (i : Instr) (count : Nat) (s : State) (f : State → State) (hpos : 0 < count)
    (hout : 0xFFF < s.I.toNat + (count - 1)) :
    FaultsWith s (guardAccess i count s f) (.memoryOutOfBounds s.pc (encode i) (max s.I.toNat 0x1000)) := by
  rw [guardAccess_bad i count s f hpos hout]
  exact raise_faultsWith _ s

/-! ## Stores (R153, R154) -/

theorem exec_ldB_of_inBounds (x : RegIdx) (s : State) (h : s.I.toNat + 2 ≤ 0xFFF) :
    exec (.ldB x) s =
      .next (advance .next { s with mem := s.mem.writeBytes (s.effAddr 0) (decimalDigits (s.reg x)) }) :=
  congrArg Host.Outcome.next (guardAccess_ok (.ldB x) 3 s _ (.inr h))

theorem exec_stRegs_of_inBounds (x : RegIdx) (s : State) (h : s.I.toNat + x.val ≤ 0xFFF) :
    exec (.stRegs x) s = .next (advance .next { s with mem := s.mem.writeBytes (s.effAddr 0) (s.regsUpTo x) }) :=
  congrArg Host.Outcome.next (guardAccess_ok (.stRegs x) (x.val + 1) s _ (.inr h))

theorem effAddr_eq (s : State) (k : Nat) : s.effAddr k = s.effAddr 0 + k := rfl

/-- After a store through `I` that ends below the top of memory, byte `k` is at `I + k`. -/
theorem byte_stored (s : State) (bs : List Byte) (k : Nat) (hmem : s.mem.wf = true)
    (hfit : s.effAddr 0 + bs.length ≤ 4096) (hk : k < bs.length) :
    (advance .next { s with mem := s.mem.writeBytes (s.effAddr 0) bs }).byte (s.effAddr k) = bs.getD k 0 := by
  refine (read_writeBytes bs s.mem (s.effAddr 0) (s.effAddr k) hmem hfit).trans ?_
  rw [effAddr_eq s k, if_pos ⟨Nat.le_add_right _ _, Nat.add_lt_add_left hk _⟩, Nat.add_sub_cancel_left]

/-- A store through `I` that ends below the top of memory leaves every byte outside it. -/
theorem sameBytesOutside_stored (s : State) (bs : List Byte) (hmem : s.mem.wf = true)
    (hfit : s.effAddr 0 + bs.length ≤ 4096) :
    SameBytesOutside s (advance .next { s with mem := s.mem.writeBytes (s.effAddr 0) bs }) (s.effAddr 0) bs.length := by
  intro a houtside
  exact (read_writeBytes bs s.mem (s.effAddr 0) a hmem hfit).trans (if_neg (by omega))

theorem toNat_ofNat_digit (n : Nat) (h : n < 256) : (BitVec.ofNat 8 n).toNat = n := Nat.mod_eq_of_lt h

/-- Settles O20: the three digits are stored as one block, and the check covers its three addresses. -/
theorem storeDecimalDigits : Obligations.StoreDecimalDigits := by
  intro x s hmem
  have enc := encodes_of_wf (.ldB x) rfl
  refine ⟨enc, fun hin => ?_, fun hout => ?_⟩
  · have hfit : s.effAddr 0 + (decimalDigits (s.reg x)).length ≤ 4096 := by
      simp only [State.effAddr, decimalDigits, List.length_cons, List.length_nil]
      omega
    have stored := fun k hk => congrArg BitVec.toNat (byte_stored s _ k hmem hfit hk)
    have := (s.reg x).isLt
    refine ⟨_, exec_ldB_of_inBounds x s hin, ?_, ?_, ?_, sameBytesOutside_stored s _ hmem hfit, rfl, rfl⟩
    · exact (stored 0 (show 0 < 3 by decide)).trans (toNat_ofNat_digit _ (by omega))
    · exact (stored 1 (show 1 < 3 by decide)).trans (toNat_ofNat_digit _ (by omega))
    · exact (stored 2 (show 2 < 3 by decide)).trans (toNat_ofNat_digit _ (by omega))
  · exact ⟨_, rfl, guardAccess_faultsWith (.ldB x) 3 s _ (by decide) hout⟩

/-- Settles O21: the registers are stored as one block, and the check covers its addresses. -/
theorem storeRegisterBlock : Obligations.StoreRegisterBlock := by
  intro x s hmem
  refine ⟨encodes_of_wf (.stRegs x) rfl, fun hin => ?_, fun hout => ?_⟩
  · have hlen := length_regsUpTo s x
    have hfit : s.effAddr 0 + (s.regsUpTo x).length ≤ 4096 := by
      rw [hlen, State.effAddr]
      omega
    have outside := sameBytesOutside_stored s _ hmem hfit
    rw [hlen] at outside
    refine ⟨_, exec_stRegs_of_inBounds x s hin, fun k hk => ?_, outside, rfl, rfl⟩
    rw [byte_stored s _ k.val hmem hfit (by rw [hlen]; exact Nat.lt_succ_of_le hk)]
    exact getD_regsUpTo s x k.val hk
  · exact ⟨_, rfl, guardAccess_faultsWith (.stRegs x) (x.val + 1) s _ (Nat.succ_pos _) hout⟩

/-- Settles O23: two neighbouring bytes of the stored block are the two bytes of a fetch (R53, R60). -/
theorem storedBytesAreFetched : Obligations.StoredBytesAreFetched := by
  intro x s hmem hin
  obtain ⟨t, he, stored, -⟩ := (storeRegisterBlock x s hmem).2.1 hin
  refine ⟨t, he, fun j k p hjk hk hp => ?_⟩
  have hj : j ≤ x := le_trans (Fin.le_def.2 (by omega)) hk
  have high : t.byte p.toNat = s.reg j := by rw [hp]; exact stored j hj
  have low : t.byte (p.toNat + 1) = s.reg k := by rw [hp, Nat.add_assoc, hjk]; exact stored k hk
  exact congrArg₂ opcodeOfBytes high low

/-! ## Loads (R155) -/

theorem exec_ldRegs_of_inBounds (x : RegIdx) (s : State) (h : s.I.toNat + x.val ≤ 0xFFF) :
    exec (.ldRegs x) s =
      .next (advance .next { s with V := loadRegs s.mem (s.effAddr 0) s.V (x.val + 1) }) :=
  congrArg Host.Outcome.next (guardAccess_ok (.ldRegs x) (x.val + 1) s _ (.inr h))

/-- Settles O22: the registers up to `Vx` are loaded from consecutive addresses, and the check covers them. -/
theorem loadRegisterBlock : Obligations.LoadRegisterBlock := by
  intro x s
  have loaded := reg_loadRegs s (s.effAddr 0) (x.val + 1)
  refine ⟨encodes_of_wf (.ldRegs x) rfl, fun hin => ?_, fun hout => ?_⟩
  · refine ⟨_, exec_ldRegs_of_inBounds x s hin, fun k hk => ?_, fun k hk => ?_, rfl, fun _ => rfl, rfl⟩
    · exact (loaded k).trans (if_pos (Nat.lt_succ_of_le hk))
    · exact (loaded k).trans (if_neg (Nat.not_lt.2 hk))
  · exact ⟨_, rfl, guardAccess_faultsWith (.ldRegs x) (x.val + 1) s _ (Nat.succ_pos _) hout⟩

end Sys2Proof.Machine
end

section
/-! Proofs about the display instructions (45_display.md R170 to R174), the timers, the key wait and the random byte
(46_timers_input_random.md R180 to R184). -/

namespace Sys2Proof.Machine

/-- Settles O24: the cleared framebuffer is the value written, whatever was set before. -/
theorem clearScreen : Obligations.ClearScreen :=
  ⟨encodes_of_wf .cls rfl, fun _ => ⟨_, rfl, pixel_clear, rfl, rfl, fun _ => rfl, rfl⟩⟩

theorem pixel_drawSprite_of_covered (m : Memory) (base cx cy n : Nat) (fb : Framebuffer) (px py : Nat) (hn : n ≤ 15)
    (hcov : SpriteCovers (fun k => m.read (base + k)) cx cy n px py) :
    (drawSprite m base cx cy n fb).1.pixel px py = !fb.pixel px py := by
  simp [pixel_drawSprite m base cx cy n fb px py (hn.trans (by decide)), hcov]

theorem pixel_drawSprite_of_not_covered (m : Memory) (base cx cy n : Nat) (fb : Framebuffer) (px py : Nat) (hn : n ≤ 15)
    (hcov : ¬ SpriteCovers (fun k => m.read (base + k)) cx cy n px py) :
    (drawSprite m base cx cy n fb).1.pixel px py = fb.pixel px py := by
  simp [pixel_drawSprite m base cx cy n fb px py (hn.trans (by decide)), hcov]

theorem exec_drw_of_inBounds (x y : RegIdx) (n : Nat) (s : State) (h : n = 0 ∨ s.I.toNat + (n - 1) ≤ 0xFFF) :
    exec (.drw x y n) s =
      let drawn := drawSprite s.mem (s.effAddr 0) (s.reg x).toNat (s.reg y).toNat n s.fb
      .next (advance .next ({ s with fb := drawn.1, dirty := true }.setReg vf (flagByte drawn.2))) :=
  congrArg Host.Outcome.next (guardAccess_ok (.drw x y n) n s _ h)

/-- Settles O25: the sprite flips the pixels it covers, and its collision becomes the flag. -/
theorem drawFlipsCoveredPixels : Obligations.DrawFlipsCoveredPixels := by
  intro x y n s hn
  have hwf : (Instr.drw x y n).wf = true := decide_eq_true hn
  refine ⟨encodes_of_wf (.drw x y n) hwf, fun hin => ?_, fun hpos hout => ?_⟩
  · have flipped := fun px py =>
      pixel_drawSprite_of_covered s.mem (s.effAddr 0) (s.reg x).toNat (s.reg y).toNat n s.fb px py hn
    have kept := fun px py =>
      pixel_drawSprite_of_not_covered s.mem (s.effAddr 0) (s.reg x).toNat (s.reg y).toNat n s.fb px py hn
    have collision := collision_drawSprite s.mem (s.effAddr 0) (s.reg x).toNat (s.reg y).toNat n s.fb (by omega)
    have drew := exec_drw_of_inBounds x y n s hin
    generalize drawSprite s.mem (s.effAddr 0) (s.reg x).toNat (s.reg y).toNat n s.fb = drawn at flipped kept collision drew
    refine ⟨_, drew, flipped, kept, fun hhit => ?_, fun hfree => ?_, fun r hr => reg_setReg_other _ vf _ r hr, rfl, rfl,
      fun _ => rfl, rfl⟩
    · refine (reg_setReg_same _ vf _).trans ?_
      rw [collision.2 hhit]; rfl
    · refine (reg_setReg_same _ vf _).trans ?_
      rw [Bool.eq_false_iff.2 fun h => hfree (collision.1 h)]; rfl
  · exact ⟨_, rfl, guardAccess_faultsWith (.drw x y n) n s _ hpos hout⟩

/-- Settles O26: the second draw finds the same sprite at the same place, and flips the same pixels back. -/
theorem drawTwiceRestores : Obligations.DrawTwiceRestores := by
  intro x y n s hn hx hy hin
  obtain ⟨t, ht, flipped, kept, -, -, regs, -, -, bytes, frame⟩ := (drawFlipsCoveredPixels x y n s hn).2.1 hin
  have hI : t.I = s.I := (congrArg State.I frame :)
  obtain ⟨u, hu, flipped', kept', hit, free, -⟩ := (drawFlipsCoveredPixels x y n t hn).2.1 (by rwa [hI])
  have same_sprite : (fun k => t.byte (t.effAddr k)) = fun k => s.byte (s.effAddr k) := by
    funext k
    rw [bytes, State.effAddr, State.effAddr, hI]
  rw [same_sprite, regs x hx, regs y hy] at flipped' kept' hit free
  refine ⟨t, u, ht, hu, fun px py => ?_, fun hvf => ?_, fun ⟨px, py, hcov, hoff⟩ => ?_⟩
  · by_cases hcov : SpriteCovers (fun k => s.byte (s.effAddr k)) (s.reg x).toNat (s.reg y).toNat n px py
    · rw [flipped' px py hcov, flipped px py hcov, Bool.not_not]
    · rw [kept' px py hcov, kept px py hcov]
  · by_contra hnone
    have no_hit : u.reg vf = 0 := by
      refine free fun ⟨px, py, hcov, hon⟩ => hnone ⟨px, py, hcov, ?_⟩
      simpa [flipped px py hcov] using hon
    rw [no_hit] at hvf
    exact absurd hvf (by decide)
  · exact hit ⟨px, py, hcov, by rw [flipped px py hcov, hoff]; rfl⟩

/-- Settles O27: `Fx07` writes one register, and the other two write one timer. -/
theorem timerAccess : Obligations.TimerAccess := fun x s =>
  ⟨encodes_of_wf (.ldVxDT x) rfl, encodes_of_wf (.ldDTVx x) rfl, encodes_of_wf (.ldSTVx x) rfl,
    writesReg_of_exec _ s x _ rfl, rfl, rfl⟩

/-- Settles O28: the cycle that suspends the core ends before sub-steps 6 to 8. -/
theorem keyWaitBegins : Obligations.KeyWaitBegins := fun x s =>
  ⟨encodes_of_wf (.ldVxK x) rfl, rfl, fun hi => step_of_suspending s _ (.ldVxK x) x hi rfl rfl⟩

/-- Settles O30: a known random byte is drawn first, and the masked byte is written to one register. -/
theorem randomByteMasked : Obligations.RandomByteMasked := by
  intro x nn s
  refine ⟨encodes_of_wf (.rnd x nn) rfl, fun r rest hknown => ?_,
    ⟨_, rfl, reg_setReg_same _ x _, fun r hr => reg_setReg_other _ x _ r hr, rfl, fun _ => rfl, rfl, rfl⟩⟩
  rw [State.randomByte, Supply.next, hknown]

end Sys2Proof.Machine
end

section
/-! Proofs about memory as data, the reset and the boot (10_state.md R38, R41, R43; 20_memory.md R55;
70_reset_and_hazards.md R220 to R222), and about the word placed for the next fetch. -/

namespace Sys2Proof.Machine

/-! ## Canonical memories (log 15) -/

/-- The first entry of a canonical memory, taken apart. -/
theorem wfFrom_cons {lo k : Nat} {v : Byte} {m : Memory} (h : Memory.wfFrom lo ((k, v) :: m) = true) :
    lo ≤ k ∧ v ≠ unlistedByte k ∧ m.wfFrom (k + 1) = true := by
  simp only [Memory.wfFrom, Bool.and_eq_true, decide_eq_true_eq] at h
  exact ⟨h.1.1.1, h.1.2, h.2⟩

/-- A canonical memory lists exactly the addresses that do not read as unlisted, so that what it reads fixes its first entry
and then the rest. -/
theorem canonical_ext (m m' : Memory) (lo : Nat) (h : m.wfFrom lo = true) (h' : m'.wfFrom lo = true)
    (hread : ∀ a, m.read a = m'.read a) : m = m' := by
  induction m generalizing lo m' with
  | nil =>
    cases m' with
    | nil => rfl
    | cons e' m' =>
      obtain ⟨k', v'⟩ := e'
      have hv : unlistedByte k' = v' := (hread k').trans (if_pos rfl)
      exact absurd hv.symm (wfFrom_cons h').2.1
  | cons e m ih =>
    obtain ⟨k, v⟩ := e
    obtain ⟨hlo, hv, hm⟩ := wfFrom_cons h
    have read_k : v = m'.read k := (if_pos rfl).symm.trans (hread k)
    cases m' with
    | nil => exact absurd read_k hv
    | cons e' m' =>
      obtain ⟨k', v'⟩ := e'
      obtain ⟨hlo', hv', hm'⟩ := wfFrom_cons h'
      have read_k' : Memory.read ((k, v) :: m) k' = v' := (hread k').trans (if_pos rfl)
      have not_below : ¬ k < k' := fun hlt =>
        hv (read_k.trans (((if_neg (Nat.ne_of_lt hlt)).trans (read_of_lt m' (k' + 1) k hm' (by omega)))))
      have not_above : ¬ k' < k := fun hlt =>
        hv' (read_k'.symm.trans ((if_neg (Nat.ne_of_lt hlt)).trans (read_of_lt m (k + 1) k' hm (by omega))))
      obtain rfl : k = k' := by omega
      obtain rfl : v = v' := read_k.trans (if_pos rfl)
      refine congrArg _ (ih m' (k + 1) hm hm' fun a => ?_)
      by_cases ha : a = k
      · rw [ha, read_of_lt m (k + 1) k hm (by omega), read_of_lt m' (k + 1) k hm' (by omega)]
      · have := hread a
        rwa [read_cons, read_cons, if_neg ha, if_neg ha] at this

/-- Settles O57: the entries of both lists start at or above address 0. -/
theorem canonicalMemoriesEqual : Obligations.CanonicalMemoriesEqual := fun m m' h h' => canonical_ext m m' 0 h h'

/-! ## Reset (R41, R43, R220) -/

theorem length_defaultFont : defaultFont.length = 80 := rfl

theorem unlistedByte_outside_font (a : Nat) (h : a < 0x050 ∨ 0x09F < a) : unlistedByte a = 0 := by
  rw [unlistedByte]
  split_ifs with hfont
  · have above : 0x050 ≤ a := hfont
    exact List.getD_eq_default _ _ (by rw [length_defaultFont]; show 80 ≤ a - 0x050; omega)
  · rfl

/-- Settles O44: the values are those of the literal, and an address outside the glyphs reads as 0. -/
theorem resetValues : Obligations.ResetValues := by
  refine ⟨unlistedByte_outside_font, fun x => Vector.getElem_replicate _, rfl, rfl, fun k => ?_, rfl, rfl, rfl, rfl,
    pixel_clear, rfl, fun k => Vector.getElem_replicate _, rfl, rfl, rfl⟩
  by_cases hk : k < 16
  · exact (dif_pos hk).trans (Vector.getElem_replicate _)
  · exact dif_neg hk

/-- After the reset an address reads as its glyph byte, or as unlisted. -/
theorem byte_resetWith (font : List Byte) (tick a : Nat) (h : font.length = 80) :
    (State.resetWith font tick).byte a =
      if 0x050 ≤ a ∧ a < 0x050 + font.length then font.getD (a - 0x050) 0 else unlistedByte a :=
  read_writeBytes font [] 0x050 a rfl (by rw [h]; decide)

/-- An unlisted address reads as its byte of the default font, so that writing the default font lists nothing. -/
theorem writeBytes_defaultFont : Memory.writeBytes [] 0x050 defaultFont = [] := by
  refine canonical_ext _ _ 0 (writeBytes_wf defaultFont [] 0x050 rfl) rfl fun a => ?_
  rw [read_writeBytes defaultFont [] 0x050 a rfl (by rw [length_defaultFont]; decide), read_nil]
  split_ifs with h
  · exact (if_pos h.1).symm
  · rfl

/-- Settles O45: the glyph bytes are one `writeBytes` into the empty list. -/
theorem resetInstallsFont : Obligations.ResetInstallsFont := by
  refine ⟨fun font tick hfont => ⟨fun k hk => ?_, fun a ha => ?_⟩, length_defaultFont, ?_⟩
  · rw [byte_resetWith font tick _ hfont, if_pos (by omega), Nat.add_sub_cancel_left]
  · rw [byte_resetWith font tick a hfont, if_neg (by omega), unlistedByte_outside_font a ha]
  · exact congrArg (fun m => { State.reset with mem := m }) writeBytes_defaultFont

/-- The invariant asks for nothing of the reset state but a canonical memory and an admissible interval (R41, R203). -/
theorem reset_inv (m : Memory) (tick : Nat) (hm : m.wf = true) (ht : Config.minTickInterval ≤ tick) :
    State.Inv { State.reset with mem := m, env := { Env.reset with tickInterval := tick } } where
  mem_wf := hm
  pc_le := by show (0x200 : Addr).toNat ≤ 0x10FE; decide
  sp_le := Nat.zero_le 16
  returns_le := fun _ hk => absurd hk (Nat.not_lt_zero _)
  one_key := fun j _ hj => absurd (hj.symm.trans (Vector.getElem_replicate j.isLt)) (by decide)
  tick_le := Nat.le_refl 0
  interval_ge := ht
  waiting_pc := by intro x h; cases h
  clean := fun _ => rfl
  stopped_left := by intro o h; cases h

/-- Settles O49: reset lists no byte, or the bytes of one `writeBytes`. -/
theorem invariantAtReset : Obligations.InvariantAtReset :=
  ⟨reset_inv [] Config.defaultTickInterval rfl (Nat.le_refl _),
    fun font tick ht => reset_inv _ tick (writeBytes_wf font [] 0x050 rfl) ht⟩

/-! ## Boot (R199, R222) -/

theorem boot_of_fits (bytes : List Byte) (s : State) (hm : s.mode = .running) (h : bytes.length ≤ 3584) :
    boot bytes s = enterExclusive (load bytes s) := by
  rw [boot, load_of_fits bytes s h]
  exact whileRunning_running _ enterExclusive hm

theorem enterExclusive_of_ok (s : State) (h : s.displayAnswer = .ok) :
    enterExclusive s = { s.calledDisplay .enterExclusive with exclusive := true } := by
  rw [enterExclusive, h]

theorem enterExclusive_of_error (s : State) (e : CollabError) (h : s.displayAnswer = .error e) :
    enterExclusive s = raise (.collaboratorError .enterExclusive e) (s.calledDisplay .enterExclusive) := by
  rw [enterExclusive, h]

/-- Settles O47: a ROM that fits leaves the one call of the display, and one that does not leaves none. -/
theorem bootEntersExclusiveMode : Obligations.BootEntersExclusiveMode := by
  intro bytes s hm hx
  refine ⟨fun hfits hok => ?_, fun e hfits herr => ?_, fun hover => ?_⟩
  · have entered := enterExclusive_of_ok { s with mem := s.mem.writeBytes 0x200 bytes } hok
    rw [boot_of_fits bytes s hm hfits, load_of_fits bytes s hfits, entered]
    exact ⟨rfl, hm, rfl, rfl, rfl⟩
  · have failed := enterExclusive_of_error { s with mem := s.mem.writeBytes 0x200 bytes } e herr
    rw [boot_of_fits bytes s hm hfits, load_of_fits bytes s hfits, failed]
    exact ⟨endRun_exclusive _ _, raise_mode _ _, by simp [raise_eq_endRun, endRun_log, hx]⟩
  · rw [boot, load_of_oversize bytes s hover, whileRunning_stopped _ _ _ (raise_mode _ s)]
    exact endRun_free _ s hx

/-! ## The word placed for the next fetch (log 7) -/

theorem opcodeOfBytes_halves (op : Opcode) : opcodeOfBytes (op.extractLsb' 8 8) (op.extractLsb' 0 8) = op := by
  have := op.isLt
  apply BitVec.eq_of_toNat_eq
  rw [opcodeOfBytes, toNat_append_mul, toNat_field, toNat_field]
  omega

theorem opcodeAtPc_placeAtPc (s : State) (op : Opcode) (hmem : s.mem.wf = true) (hpc : s.pc.toNat ≤ 0xFFE) :
    (s.placeAtPc op).opcodeAtPc = op := by
  have placed := fun b => read_writeBytes [op.extractLsb' 8 8, op.extractLsb' 0 8] s.mem s.pc.toNat b hmem
    (show s.pc.toNat + 2 ≤ 4096 by omega)
  have high : (s.placeAtPc op).byte s.pc.toNat = op.extractLsb' 8 8 := by
    refine (placed _).trans ((if_pos ⟨Nat.le_refl _, Nat.lt_add_of_pos_right (Nat.succ_pos 1)⟩).trans ?_)
    rw [Nat.sub_self]; rfl
  have low : (s.placeAtPc op).byte (s.pc.toNat + 1) = op.extractLsb' 0 8 := by
    refine (placed _).trans ((if_pos ⟨Nat.le_add_right _ _, Nat.add_lt_add_left (Nat.lt_succ_self 1) _⟩).trans ?_)
    rw [Nat.add_sub_cancel_left]; rfl
  exact (congrArg₂ opcodeOfBytes high low).trans (opcodeOfBytes_halves op)

theorem readyToFetch_pc_le (s : State) : s.readyToFetch.pc.toNat ≤ 0xFFE := by
  rw [readyToFetch_pc]
  split_ifs with h
  · decide
  · omega

theorem fetchInstr_of_decode (s : State) (i : Instr) (hpc : s.pc.toNat ≤ 0xFFE) (hd : decode s.opcodeAtPc = .ok i) :
    fetchInstr s = .ok i := by
  rw [fetchInstr, if_neg (Nat.not_lt.2 hpc), hd]

theorem decodeTableWord_of_decode (w : Nat) (i : Instr) (hd : decode (BitVec.ofNat 16 w) = .ok i) :
    decodeTableWord 16 w = some i := by
  have word : BitVec.ofNat 16 (w % 2 ^ 16) = BitVec.ofNat 16 w := BitVec.eq_of_toNat_eq (by simp)
  simp only [decodeTableWord, word, decodeBytes, opcodeOfBytes_halves, hd]

/-- Settles O48: the two bytes placed are the word again, at a pc that can be fetched from. -/
theorem fetchWordRunsNext : Obligations.FetchWordRunsNext := by
  intro s w i hmem hd
  have word : BitVec.ofNat 16 (w % 2 ^ 16) = BitVec.ofNat 16 w := BitVec.eq_of_toNat_eq (by simp)
  have fetched : fetchInstr (s.withFetchWord 16 w) = .ok i := by
    refine fetchInstr_of_decode _ i (readyToFetch_pc_le s) ?_
    rw [State.withFetchWord, word, opcodeAtPc_placeAtPc s.readyToFetch _ hmem (readyToFetch_pc_le s), hd]
  obtain ⟨t, he, -⟩ := exec_cases i (s.withFetchWord 16 w)
  exact ⟨decodeTableWord_of_decode w i hd, (instrNow_eq_some _ i).2 ⟨rfl, rfl, fetched⟩, t, he,
    step_executed _ i t rfl rfl fetched he⟩

end Sys2Proof.Machine
end

section
/-! Proofs about the cycle (40_execution_cycle.md R90 to R101): fetch and decode, the halt check, and the three outcomes of
sub-steps 6 to 8. -/

namespace Sys2Proof.Machine

/-! ## Fetch and decode (R90 to R93) -/

/-- Settles O31: the fetched word decodes to `i`, and the cycle goes on from what `i` left. -/
theorem stepRunsDecodedInstruction : Obligations.StepRunsDecodedInstruction := by
  intro s i hm hh hpc hd
  have fetched := fetchInstr_of_decode s i hpc hd
  obtain ⟨t, he, hcases⟩ := exec_cases i s
  have stepped := step_executed s i t hm hh fetched he
  refine ⟨(instrNow_eq_some s i).2 ⟨hm, hh, fetched⟩, (encode_of_decode hd).1, t, he, fun hrun => ?_, fun hnot => ?_⟩
  · rw [stepped, whileRunning_running t finishCycle hrun]; rfl
  · rw [stepped]
    cases ht : t.mode with
    | running => exact absurd ht hnot
    | waitingForKey x => rw [whileRunning_waiting t finishCycle x ht]
    | stopped o => rw [whileRunning_stopped t finishCycle o ht]

/-- Settles O32: neither a pc above 0xFFE nor an opcode outside the catalogue reaches execute. -/
theorem fetchAndDecodeFaults : Obligations.FetchAndDecodeFaults := by
  intro s hm hh
  refine ⟨fun hpc => ?_, fun hpc hnone => ?_⟩
  · have fetch : fetchInstr s = .error (.pcOutOfBounds s.pc) := if_pos hpc
    exact ⟨_, step_unfetched s _ hm hh fetch, raise_faultsWith _ s⟩
  · have refused : decode s.opcodeAtPc = .error (.noSuchInstruction s.opcodeAtPc) :=
      (decodeFollowsCatalogue s.opcodeAtPc).2 hnone
    have fetch : fetchInstr s = .error (.decodeError s.pc s.opcodeAtPc) := by
      rw [fetchInstr, if_neg (Nat.not_lt.2 hpc), refused]
    exact ⟨_, step_unfetched s _ hm hh fetch, raise_faultsWith _ s⟩

/-- Settles O33: the step is the exit sequence alone. -/
theorem haltCheckEndsRun : Obligations.HaltCheckEndsRun := by
  intro s hm hh
  rw [step_halted s hm hh]
  refine ⟨fun hfree => congrArg Host.Outcome.next (endRun_free .quit s hfree), fun hheld => ?_⟩
  have frame := endRun_frame .quit s
  rw [endRun_held .quit s hheld] at frame ⊢
  refine ⟨_, rfl, rfl, rfl, fun hok => ?_, fun e herr => ?_, ?_⟩
  · rw [hok]; rfl
  · rw [herr]; rfl
  · rwa [hheld] at frame

/-- Settles O34: the first branch of `step`. -/
theorem stoppedHasNoStep : Obligations.StoppedHasNoStep := step_stopped

/-! ## The end of a cycle (R97 to R99) -/

/-- What a render that does not fail leaves (R97). -/
def State.rendered (s : State) : State :=
  if s.dirty = true then { s.calledDisplay (.render s.fb) with dirty := false } else s

theorem rendered_of_dirty (s : State) (h : s.dirty = true) :
    s.rendered = { s.calledDisplay (.render s.fb) with dirty := false } := if_pos h

theorem rendered_of_clean (s : State) (h : s.dirty = false) : s.rendered = s := if_neg (by simp [h])

/-- A render changes nothing but `dirty`, the history and the display's answers. -/
theorem rendered_frame (s : State) :
    { s.rendered with
      dirty := s.dirty, log := s.log, env := { s.rendered.env with display := s.env.display } } = s := by
  rw [State.rendered]
  split_ifs <;> rfl

@[simp] theorem rendered_mem (s : State) : s.rendered.mem = s.mem :=
  (congrArg State.mem (rendered_frame s) :)
@[simp] theorem rendered_V (s : State) : s.rendered.V = s.V :=
  (congrArg State.V (rendered_frame s) :)
@[simp] theorem rendered_I (s : State) : s.rendered.I = s.I :=
  (congrArg State.I (rendered_frame s) :)
@[simp] theorem rendered_pc (s : State) : s.rendered.pc = s.pc :=
  (congrArg State.pc (rendered_frame s) :)
@[simp] theorem rendered_stack (s : State) : s.rendered.stack = s.stack :=
  (congrArg State.stack (rendered_frame s) :)
@[simp] theorem rendered_sp (s : State) : s.rendered.sp = s.sp :=
  (congrArg State.sp (rendered_frame s) :)
@[simp] theorem rendered_DT (s : State) : s.rendered.DT = s.DT :=
  (congrArg State.DT (rendered_frame s) :)
@[simp] theorem rendered_ST (s : State) : s.rendered.ST = s.ST :=
  (congrArg State.ST (rendered_frame s) :)
@[simp] theorem rendered_lastTick (s : State) : s.rendered.lastTick = s.lastTick :=
  (congrArg State.lastTick (rendered_frame s) :)
@[simp] theorem rendered_fb (s : State) : s.rendered.fb = s.fb :=
  (congrArg State.fb (rendered_frame s) :)
@[simp] theorem rendered_keys (s : State) : s.rendered.keys = s.keys :=
  (congrArg State.keys (rendered_frame s) :)
@[simp] theorem rendered_halt (s : State) : s.rendered.halt = s.halt :=
  (congrArg State.halt (rendered_frame s) :)
@[simp] theorem rendered_mode (s : State) : s.rendered.mode = s.mode :=
  (congrArg State.mode (rendered_frame s) :)
@[simp] theorem rendered_exclusive (s : State) : s.rendered.exclusive = s.exclusive :=
  (congrArg State.exclusive (rendered_frame s) :)
@[simp] theorem rendered_tickInterval (s : State) : s.rendered.env.tickInterval = s.env.tickInterval :=
  (congrArg (·.env.tickInterval) (rendered_frame s) :)
@[simp] theorem rendered_lastSample (s : State) : s.rendered.env.lastSample = s.env.lastSample :=
  (congrArg (·.env.lastSample) (rendered_frame s) :)
@[simp] theorem rendered_clock (s : State) : s.rendered.env.clock = s.env.clock :=
  (congrArg (·.env.clock) (rendered_frame s) :)
@[simp] theorem rendered_random (s : State) : s.rendered.env.random = s.env.random :=
  (congrArg (·.env.random) (rendered_frame s) :)
@[simp] theorem rendered_polls (s : State) : s.rendered.env.polls = s.env.polls :=
  (congrArg (·.env.polls) (rendered_frame s) :)
@[simp] theorem rendered_waits (s : State) : s.rendered.env.waits = s.env.waits :=
  (congrArg (·.env.waits) (rendered_frame s) :)

@[simp] theorem rendered_dirty (s : State) : s.rendered.dirty = false := by
  cases h : s.dirty
  · rw [rendered_of_clean s h, h]
  · rw [rendered_of_dirty s h]

theorem rendered_log (s : State) : s.rendered.log = (if s.dirty = true then [.render s.fb] else []) ++ s.log := by
  rw [State.rendered]
  split_ifs <;> rfl

theorem rendered_display (s : State) :
    s.rendered.env.display = if s.dirty = true then s.env.display.rest else s.env.display := by
  rw [State.rendered]
  split_ifs <;> rfl

/-- The state after sub-steps 6 to 8 of the state `t` in which no call failed (R90, R97 to R99). -/
structure CycleCompleted (t u : State) : Prop where
  mode : u.mode = .running
  dirty : u.dirty = false
  log : u.log = .clockSample :: .poll :: ((if t.dirty = true then [.render t.fb] else []) ++ t.log)
  halt : u.halt = true ↔ t.halt = true ∨ t.pollAnswer = .quit
  pressed : ∀ k, u.pressed k = true ↔ t.pollAnswer = .key k
  timers : TimerStepAt t u t.clockSample
  lastSample : u.env.lastSample = t.clockSample
  kept : SameInstrState t u
  exclusive : u.exclusive = t.exclusive
  tickInterval : u.env.tickInterval = t.env.tickInterval
  random : u.env.random = t.env.random
  waits : u.env.waits = t.env.waits
  polls : u.env.polls = t.env.polls.rest
  clock : u.env.clock = t.env.clock.rest
  display : u.env.display = (if t.dirty = true then t.env.display.rest else t.env.display)

/-- The timer step makes at most one tick of both timers (R200). -/
theorem timerStepAt_timerStep (s : State) : TimerStepAt s (timerStep s) s.clockSample := by
  rcases timerStep_spec s with ⟨hticks, h⟩ | ⟨hearly, h⟩
  · rw [h]
    exact ⟨fun _ => ⟨countDown_toNat s.DT, countDown_toNat s.ST, rfl⟩, fun hearly => absurd hticks (Nat.not_le.2 hearly)⟩
  · rw [h]
    exact ⟨fun hticks => absurd hearly (Nat.not_lt.2 hticks), fun _ => ⟨rfl, rfl, rfl⟩⟩

/-- The timer step touches the timers, `last_tick`, the clock and the history, and nothing else. -/
theorem timerStep_frame (s : State) :
    { timerStep s with DT := s.DT, ST := s.ST, lastTick := s.lastTick } = s.calledClock := by
  rcases timerStep_spec s with ⟨-, h⟩ | ⟨-, h⟩ <;> rw [h] <;> rfl

/-- A timer step looks at the timers, the last tick and the interval of the state it starts from, and at nothing else. -/
theorem TimerStepAt.congr {s t u : State} {c : Nat} (h : TimerStepAt s u c) (hD : t.DT = s.DT) (hS : t.ST = s.ST)
    (hl : t.lastTick = s.lastTick) (hi : t.env.tickInterval = s.env.tickInterval) : TimerStepAt t u c := by
  unfold TimerStepAt
  rw [hD, hS, hl, hi]
  exact h

/-- The timer step after a poll that did not fail completes the cycle. -/
theorem cycleCompleted_timerStep (t : State) (keys : Vector Bool 16) (quit : Bool) (hm : t.mode = .running)
    (hkeys : ∀ k : KeyCode, keys[k.val] = true ↔ t.pollAnswer = .key k) (hquit : quit = true ↔ t.pollAnswer = .quit) :
    CycleCompleted t (timerStep { t.rendered.calledPoll with keys := keys, halt := t.halt || quit }) := by
  have frame := timerStep_frame { t.rendered.calledPoll with keys := keys, halt := t.halt || quit }
  have timers := timerStepAt_timerStep { t.rendered.calledPoll with keys := keys, halt := t.halt || quit }
  have sample : State.clockSample { t.rendered.calledPoll with keys := keys, halt := t.halt || quit } = t.clockSample := by
    simp [State.clockSample]
  rw [sample] at timers
  generalize timerStep { t.rendered.calledPoll with keys := keys, halt := t.halt || quit } = u at frame timers
  have halted : u.halt = (t.halt || quit) := (congrArg State.halt frame :)
  have latched : u.keys = keys := (congrArg State.keys frame :)
  exact
    { mode := (congrArg State.mode frame :).trans ((rendered_mode t).trans hm)
      dirty := (congrArg State.dirty frame :).trans (rendered_dirty t)
      log := (congrArg State.log frame :).trans
        (congrArg (fun calls => Call.clockSample :: Call.poll :: calls) (rendered_log t))
      halt := by rw [halted, Bool.or_eq_true, hquit]
      pressed := fun k => by rw [State.pressed, latched, hkeys]
      timers := timers.congr (rendered_DT t).symm (rendered_ST t).symm (rendered_lastTick t).symm
        (rendered_tickInterval t).symm
      lastSample := (congrArg (·.env.lastSample) frame :).trans sample
      kept :=
        { mem := (congrArg State.mem frame :).trans (rendered_mem t)
          V := (congrArg State.V frame :).trans (rendered_V t)
          I := (congrArg State.I frame :).trans (rendered_I t)
          pc := (congrArg State.pc frame :).trans (rendered_pc t)
          stack := (congrArg State.stack frame :).trans (rendered_stack t)
          sp := (congrArg State.sp frame :).trans (rendered_sp t)
          fb := (congrArg State.fb frame :).trans (rendered_fb t) }
      exclusive := (congrArg State.exclusive frame :).trans (rendered_exclusive t)
      tickInterval := (congrArg (·.env.tickInterval) frame :).trans (rendered_tickInterval t)
      random := (congrArg (·.env.random) frame :).trans (rendered_random t)
      waits := (congrArg (·.env.waits) frame :).trans (rendered_waits t)
      polls := (congrArg (·.env.polls) frame :).trans (congrArg Supply.rest (rendered_polls t))
      clock := (congrArg (·.env.clock) frame :).trans (congrArg Supply.rest (rendered_clock t))
      display := (congrArg (·.env.display) frame :).trans (rendered_display t) }

/-- Sub-steps 6 to 8 of a running core: a failing render, or a failing poll after the render, or a completed cycle. -/
theorem finishCycle_outcomes (t : State) (hm : t.mode = .running) :
    (t.dirty = true ∧ ∃ e, t.displayAnswer = .error e ∧
      finishCycle t = raise (.collaboratorError .render e) (t.calledDisplay (.render t.fb))) ∨
    ((t.dirty = true → t.displayAnswer = .ok) ∧
      ((∃ e, t.pollAnswer = .error e ∧ finishCycle t = raise (.collaboratorError .poll e) t.rendered.calledPoll) ∨
        ((∀ e, t.pollAnswer ≠ .error e) ∧ CycleCompleted t (finishCycle t)))) := by
  rcases finishCycle_cases t hm with hfail | ⟨r, hr, hpoll⟩
  · exact .inl hfail
  have rendered : r = t.rendered ∧ (t.dirty = true → t.displayAnswer = .ok) := by
    rcases hr with ⟨hd, rfl⟩ | ⟨hd, hok, rfl⟩
    · exact ⟨(rendered_of_clean r hd).symm, fun h => absurd (hd.symm.trans h) (by decide)⟩
    · exact ⟨(rendered_of_dirty t hd).symm, fun _ => hok⟩
  obtain ⟨rfl, hok⟩ := rendered
  refine .inr ⟨hok, ?_⟩
  rcases hpoll with hfail | ⟨keys, quit, hkeys, hquit, hno, hfin⟩
  · exact .inl hfail
  · exact .inr ⟨hno, hfin ▸ cycleCompleted_timerStep t keys quit hm hkeys hquit⟩

/-- Settles O60: with no call failing only the third way of ending a cycle is left. -/
theorem cycleCompletesWhenNothingFails : Obligations.CycleCompletesWhenNothingFails := by
  intro s t hreach hdisplay hpoll
  obtain ⟨hstep, hm, -⟩ := reachesRender_spec s t hreach
  rcases finishCycle_outcomes t hm with ⟨hd, e, herr, -⟩ | ⟨-, ⟨e, herr, -⟩ | ⟨-, c⟩⟩
  · exact absurd ((hdisplay hd).symm.trans herr) (by simp)
  · exact absurd herr (hpoll e)
  · exact ⟨_, hstep, c.mode, c.dirty, c.log, c.halt, c.pressed, c.timers, c.lastSample, c.kept.mem, c.kept.V, c.kept.I,
      c.kept.pc, c.kept.stack, c.kept.sp, c.kept.fb, c.exclusive, c.tickInterval, c.random, c.waits, c.polls, c.clock,
      c.display⟩

/-- Settles O41: each failing call is one `raise` in the state that the sub-steps before it left. -/
theorem collaboratorErrorKeepsEffects : Obligations.CollaboratorErrorKeepsEffects := by
  intro s t e hreach
  obtain ⟨hstep, hm, -⟩ := reachesRender_spec s t hreach
  have outcomes := finishCycle_outcomes t hm
  refine ⟨fun hd herr => ⟨_, hstep, ?_⟩, fun hd herr => ⟨_, hstep, ?_⟩, fun hd hok herr => ⟨_, hstep, ?_⟩⟩
  · rcases outcomes with ⟨-, e', herr', hfin⟩ | ⟨hok, -⟩
    · cases herr.symm.trans herr'
      exact hfin ▸ raise_faultsWith _ _
    · exact absurd ((hok hd).symm.trans herr) (by simp)
  · rcases outcomes with ⟨hd', -⟩ | ⟨-, ⟨e', herr', hfin⟩ | ⟨hno, -⟩⟩
    · exact absurd (hd.symm.trans hd') (by decide)
    · cases herr.symm.trans herr'
      rw [rendered_of_clean t hd] at hfin
      exact hfin ▸ raise_faultsWith _ _
    · exact absurd herr (hno e)
  · rcases outcomes with ⟨-, e', herr', -⟩ | ⟨-, ⟨e', herr', hfin⟩ | ⟨hno, -⟩⟩
    · exact absurd (hok.symm.trans herr') (by simp)
    · cases herr.symm.trans herr'
      rw [rendered_of_dirty t hd] at hfin
      exact hfin ▸ raise_faultsWith _ _
    · exact absurd herr (hno e)

end Sys2Proof.Machine
end

section
/-! Proofs about the outcome of a step (40_execution_cycle.md R90 to R101; 60_exceptions.md R193, R200 to R204): the ways a
step ends, what each keeps of the state the step began in, and the rules about the latch, the timers, the calls and `halt`
that follow. -/

namespace Sys2Proof.Machine

/-! ## The end of a cycle, whether it completes or not -/

theorem endRun_not_running (o : RunOutcome) (s : State) : (endRun o s).mode ≠ .running := by
  obtain ⟨⟨o', h⟩, -⟩ := endRun_stops o s
  simp [h]

/-- A failing call leaves `halt` as it was; a poll that does not fail sets it when it answers Quit (R34, R98). -/
theorem finishCycle_halt (t : State) (hm : t.mode = .running) :
    (t.halt = true → (finishCycle t).halt = true) ∧
      ((finishCycle t).halt = true → t.halt = true ∨ t.pollAnswer = .quit) := by
  rcases finishCycle_outcomes t hm with ⟨-, e, -, h⟩ | ⟨-, ⟨e, -, h⟩ | ⟨-, c⟩⟩
  · rw [h, raise_eq_endRun, endRun_halt]
    exact ⟨id, .inl⟩
  · rw [h, raise_eq_endRun, endRun_halt, calledPoll_halt, rendered_halt]
    exact ⟨id, .inl⟩
  · exact ⟨fun h => c.halt.2 (.inl h), c.halt.1⟩

theorem finishCycle_not_waiting (t : State) (hm : t.mode = .running) (y : RegIdx) :
    (finishCycle t).mode ≠ .waitingForKey y := by
  rcases finishCycle_outcomes t hm with ⟨-, e, -, h⟩ | ⟨-, ⟨e, -, h⟩ | ⟨-, c⟩⟩
  · simp [h, raise_mode]
  · simp [h, raise_mode]
  · simp [c.mode]

/-- The timers make their step exactly when the cycle completes (R198, R200). -/
theorem finishCycle_timers (t : State) (hm : t.mode = .running) : TimersOfStep t (finishCycle t) := by
  rcases finishCycle_outcomes t hm with ⟨-, e, -, h⟩ | ⟨-, ⟨e, -, h⟩ | ⟨-, c⟩⟩
  · rw [h, raise_eq_endRun]
    exact ⟨fun hrun => absurd hrun (endRun_not_running _ _), fun _ => by simp⟩
  · rw [h, raise_eq_endRun]
    exact ⟨fun hrun => absurd hrun (endRun_not_running _ _), fun _ => by simp⟩
  · exact ⟨fun _ => c.timers, fun hnot => absurd c.mode hnot⟩

/-! ## The wait step (R96) -/

/-- Settles O29: both answers that complete the wait reach sub-steps 6 to 8, which keep what the wait step wrote. -/
theorem waitStepCompletesKeyWait : Obligations.WaitStepCompletesKeyWait := by
  intro x s hm
  refine ⟨fun k hkey => ?_, fun hquit => ?_, fun e herr => ?_, fun hnot => ?_⟩
  · have hstep := (reachesRender_spec s _ (.key x k hm hkey)).1
    have kept := finishCycle_sameInstrState
      { s.calledWait.setReg x (BitVec.ofNat 8 k.val) with pc := s.pc + 2, mode := .running }
    have halt := finishCycle_halt
      { s.calledWait.setReg x (BitVec.ofNat 8 k.val) with pc := s.pc + 2, mode := .running } rfl
    refine ⟨_, hstep, ?_, fun r hr => ?_, halt.2, halt.1, kept.pc, finishCycle_not_waiting _ rfl, byte_congr kept.mem,
      kept.mem, kept.I, kept.stack, kept.sp, kept.fb, finishCycle_timers _ rfl⟩
    · have written := (reg_congr kept.V x).trans (reg_setReg_same s.calledWait x _)
      rw [written]
      exact Nat.mod_eq_of_lt (k.isLt.trans (by decide))
    · exact (reg_congr kept.V r).trans (reg_setReg_other s.calledWait x _ r hr)
  · have hstep := (reachesRender_spec s _ (.quit x hm hquit)).1
    have kept := finishCycle_sameInstrState { s.calledWait with halt := true, pc := s.pc + 2, mode := .running }
    have halt := finishCycle_halt { s.calledWait with halt := true, pc := s.pc + 2, mode := .running } rfl
    exact ⟨_, hstep, halt.1 rfl, kept.V, kept.pc, finishCycle_not_waiting _ rfl, byte_congr kept.mem,
      kept.mem, kept.I, kept.stack, kept.sp, kept.fb, finishCycle_timers _ rfl⟩
  · refine ⟨_, step_waiting s x hm, ?_⟩
    rw [waitStep, herr]
    exact raise_faultsWith _ _
  · rw [step_waiting s x hm, waitStep, hnot]; rfl

/-! ## What a step still has of its beginning when it reaches sub-steps 6 to 8 -/

/-- What the state `t`, in which sub-steps 6 to 8 of the step from `s` begin, has of `s`. -/
structure ReachedFrame (s t : State) : Prop where
  mode : t.mode = .running
  keys : t.keys = s.keys
  lastTick : t.lastTick = s.lastTick
  exclusive : t.exclusive = s.exclusive
  tickInterval : t.env.tickInterval = s.env.tickInterval
  lastSample : t.env.lastSample = s.env.lastSample
  clockSample : t.clockSample = s.clockSample
  pollAnswer : t.pollAnswer = s.pollAnswer
  log : t.log = s.log ∨ t.log = .randomByte :: s.log ∨ t.log = .wait :: s.log
  halt_of : t.halt = true → s.halt = true ∨ ((∃ x, s.mode = .waitingForKey x) ∧ s.waitAnswer = .quit)
  halt_kept : s.halt = true → t.halt = true
  dirty_of : t.dirty = true → s.dirty = true ∨ ∃ i, s.instrNow = some i ∧ i.writesFb
  timers_of_instr : ∀ i, s.instrNow = some i → (¬ i.writesDT → t.DT = s.DT) ∧ (¬ i.writesST → t.ST = s.ST)
  timers_of_none : s.instrNow = none → t.DT = s.DT ∧ t.ST = s.ST

theorem instrNow_of_waiting {s : State} {x : RegIdx} (h : s.mode = .waitingForKey x) : s.instrNow = none := by
  rw [State.instrNow, h]

/-- An instruction that ran and neither faulted nor suspended the core had an effect within the frame. -/
theorem execFrame_of_running {i : Instr} {s t : State} (he : exec i s = .next t) (hm : t.mode = .running) :
    ExecFrame s t := by
  obtain ⟨t', he', hcases⟩ := exec_cases i s
  cases he.symm.trans he'
  rcases hcases with ⟨r, rfl⟩ | frame
  · exact absurd hm (endRun_not_running _ s)
  · exact frame

theorem reachedFrame {s t : State} (h : ReachesRender s t) : ReachedFrame s t := by
  obtain ⟨-, mode, lastTick, exclusive, pollAnswer, clockSample, tickInterval⟩ := reachesRender_spec s t h
  cases h with
  | executed i hi he hm =>
    have frame := execFrame_of_running he hm
    obtain ⟨-, fb, -, -, dt, st, -⟩ := onlyNamedInstructionsWrite i s t he
    have only : ∀ j, s.instrNow = some j → j = i := fun j hj => Option.some.inj (hj.symm.trans hi)
    exact
      { mode, lastTick, exclusive, pollAnswer, clockSample, tickInterval
        keys := frame.keys
        lastSample := (congrArg Env.lastSample frame.env :)
        log := frame.log.imp_right .inl
        halt_of := fun h => .inl (frame.halt ▸ h)
        halt_kept := fun h => frame.halt.trans h
        dirty_of := fun hd => by
          by_cases hw : i.writesFb
          · exact .inr ⟨i, hi, hw⟩
          · exact .inl ((fb hw).2 ▸ hd)
        timers_of_instr := fun j hj => only j hj ▸ ⟨dt, st⟩
        timers_of_none := fun hnone => absurd (hnone.symm.trans hi) (by simp) }
  | key x k hm ha =>
    have none := instrNow_of_waiting hm
    exact
      { mode, lastTick, exclusive, pollAnswer, clockSample, tickInterval
        keys := rfl
        lastSample := rfl
        log := .inr (.inr rfl)
        halt_of := .inl
        halt_kept := id
        dirty_of := .inl
        timers_of_instr := fun j hj => absurd (none.symm.trans hj) (by simp)
        timers_of_none := fun _ => ⟨rfl, rfl⟩ }
  | quit x hm ha =>
    have none := instrNow_of_waiting hm
    exact
      { mode, lastTick, exclusive, pollAnswer, clockSample, tickInterval
        keys := rfl
        lastSample := rfl
        log := .inr (.inr rfl)
        halt_of := fun _ => .inr ⟨⟨x, hm⟩, ha⟩
        halt_kept := fun _ => rfl
        dirty_of := .inl
        timers_of_instr := fun j hj => absurd (none.symm.trans hj) (by simp)
        timers_of_none := fun _ => ⟨rfl, rfl⟩ }

/-! ## The ways a step ends -/

/-- The run ends in the state `r` during the step from `s`: at the halt check, in fetch, decode or execute; in a wait that
failed; in a render that failed; or in a poll that failed. -/
inductive EndsIn (s : State) : State → Prop where
  | before : EndsIn s s
  | waiting (x : RegIdx) (hm : s.mode = .waitingForKey x) : EndsIn s s.calledWait
  | rendering (t : State) (reach : ReachesRender s t) (hd : t.dirty = true) : EndsIn s (t.calledDisplay (.render t.fb))
  | polling (t : State) (reach : ReachesRender s t) : EndsIn s t.rendered.calledPoll

/-- The ways the step from `s` ends: a completed cycle or wait step, the end of the run, a wait that goes on, or a core that
an instruction has just suspended. -/
inductive StepEnd (s : State) : State → Prop where
  | completed (t u : State) (reach : ReachesRender s t) (ok : ∀ e, t.pollAnswer ≠ .error e) (done : CycleCompleted t u) :
    StepEnd s u
  | ended (o : RunOutcome) (r : State) (he : EndsIn s r) : StepEnd s (endRun o r)
  | waits (x : RegIdx) (hm : s.mode = .waitingForKey x) : StepEnd s s.keptWaiting
  | suspended (x : RegIdx) (hi : s.instrNow = some (.ldVxK x)) : StepEnd s { s with mode := .waitingForKey x }

theorem stepEnd_of_reachesRender {s t : State} (reach : ReachesRender s t) : StepEnd s (finishCycle t) := by
  rcases finishCycle_outcomes t (reachedFrame reach).mode with ⟨hd, e, -, h⟩ | ⟨-, ⟨e, -, h⟩ | ⟨hno, c⟩⟩
  · rw [h]; exact .ended _ _ (.rendering t reach hd)
  · rw [h]; exact .ended _ _ (.polling t reach)
  · exact .completed t _ reach hno c

/-- Every step that answers a next state ends in one of these ways. -/
theorem stepEnd {s u : State} (h : step s = .next u) : StepEnd s u := by
  rcases step_cases s u h with ⟨x, hm, rfl⟩ | ⟨-, -, rfl⟩ | ⟨-, -, r, -, rfl⟩ | ⟨hm, hh, i, t, hf, he, rfl⟩
  · rcases waitStep_cases x s with ⟨-, hw⟩ | ⟨k, hk, hw⟩ | ⟨hq, hw⟩ | ⟨e, -, hw⟩
    · rw [hw]; exact .waits x hm
    · rw [hw]; exact stepEnd_of_reachesRender (.key x k hm hk)
    · rw [hw]; exact stepEnd_of_reachesRender (.quit x hm hq)
    · rw [hw]; exact .ended _ _ (.waiting x hm)
  · exact .ended _ _ .before
  · exact .ended _ _ .before
  · have now := (instrNow_eq_some s i).2 ⟨hm, hh, hf⟩
    rcases exec_answer he with ⟨r, -, rfl⟩ | heff
    · rw [whileRunning_stopped _ _ _ (raise_mode r s)]
      exact .ended _ _ .before
    · rcases heff.mode with hmode | ⟨x, rfl, rfl⟩
      · have running := hmode.trans hm
        rw [whileRunning_running t _ running]
        exact stepEnd_of_reachesRender (.executed i now he running)
      · exact .suspended x now

/-- A step that ends running completed its cycle or its wait step. -/
theorem completed_of_running {s u : State} (h : step s = .next u) (hu : u.mode = .running) :
    ∃ t, ReachesRender s t ∧ (∀ e, t.pollAnswer ≠ .error e) ∧ CycleCompleted t u := by
  cases stepEnd h with
  | completed t u reach ok done => exact ⟨t, reach, ok, done⟩
  | ended o r => exact absurd hu (endRun_not_running o r)
  | waits x hm => exact absurd (hm.symm.trans hu) (by simp)
  | suspended x => cases hu

/-- What the state in which a run ends has of the state `s` the step began in. -/
structure EndedFrame (s r : State) : Prop where
  keys : r.keys = s.keys
  lastTick : r.lastTick = s.lastTick
  exclusive : r.exclusive = s.exclusive
  tickInterval : r.env.tickInterval = s.env.tickInterval
  lastSample : r.env.lastSample = s.env.lastSample
  halt_of : r.halt = true → s.halt = true ∨ ((∃ x, s.mode = .waitingForKey x) ∧ s.waitAnswer = .quit)
  halt_kept : s.halt = true → r.halt = true
  timers_of_instr : ∀ i, s.instrNow = some i → (¬ i.writesDT → r.DT = s.DT) ∧ (¬ i.writesST → r.ST = s.ST)
  timers_of_none : s.instrNow = none → r.DT = s.DT ∧ r.ST = s.ST

/-- A state that agrees with the one sub-steps 6 to 8 began in on the fields of the frame. -/
theorem ReachedFrame.ended {s t r : State} (f : ReachedFrame s t) (keys : r.keys = t.keys) (lastTick : r.lastTick = t.lastTick)
    (exclusive : r.exclusive = t.exclusive) (tickInterval : r.env.tickInterval = t.env.tickInterval)
    (lastSample : r.env.lastSample = t.env.lastSample) (halt : r.halt = t.halt) (DT : r.DT = t.DT) (ST : r.ST = t.ST) :
    EndedFrame s r where
  keys := keys.trans f.keys
  lastTick := lastTick.trans f.lastTick
  exclusive := exclusive.trans f.exclusive
  tickInterval := tickInterval.trans f.tickInterval
  lastSample := lastSample.trans f.lastSample
  halt_of := by rw [halt]; exact f.halt_of
  halt_kept := by rw [halt]; exact f.halt_kept
  timers_of_instr := by rw [DT, ST]; exact f.timers_of_instr
  timers_of_none := by rw [DT, ST]; exact f.timers_of_none

theorem endedFrame {s r : State} (h : EndsIn s r) : EndedFrame s r := by
  cases h with
  | before => exact ⟨rfl, rfl, rfl, rfl, rfl, .inl, id, fun _ _ => ⟨fun _ => rfl, fun _ => rfl⟩, fun _ => ⟨rfl, rfl⟩⟩
  | waiting x hm =>
    exact ⟨rfl, rfl, rfl, rfl, rfl, .inl, id, fun _ _ => ⟨fun _ => rfl, fun _ => rfl⟩, fun _ => ⟨rfl, rfl⟩⟩
  | rendering t reach => exact (reachedFrame reach).ended rfl rfl rfl rfl rfl rfl rfl rfl
  | polling t reach =>
    exact (reachedFrame reach).ended (rendered_keys t) (rendered_lastTick t) (rendered_exclusive t)
      (rendered_tickInterval t) (rendered_lastSample t) (rendered_halt t) (rendered_DT t) (rendered_ST t)

/-! ## The latch, the timers and `halt` -/

/-- Settles O39: a step that ends running completed the poll that its beginning determined. -/
theorem pollRebuildsLatch : Obligations.PollRebuildsLatch := by
  intro s u h hu
  obtain ⟨t, reach, ok, done⟩ := completed_of_running h hu
  have same := (reachedFrame reach).pollAnswer
  rw [← same]
  exact ⟨done.pressed, fun hq => done.halt.2 (.inr hq), ok⟩

/-- Settles O40: the cycle completed, and the instruction or the wait step before it left the last tick and the clock. -/
theorem timersTickOnce : Obligations.TimersTickOnce := by
  intro s t u reach h ht
  have f := reachedFrame reach
  obtain rfl : finishCycle u = t := Host.Outcome.next.inj ((reachesRender_spec s u reach).1.symm.trans h)
  rcases finishCycle_outcomes u f.mode with ⟨-, e, -, hf⟩ | ⟨-, ⟨e, -, hf⟩ | ⟨-, c⟩⟩
  · exact absurd (hf ▸ ht) (endRun_not_running _ _)
  · exact absurd (hf ▸ ht) (endRun_not_running _ _)
  · rw [← f.clockSample]
    exact ⟨c.lastSample, c.timers, f.lastTick, f.tickInterval, f.timers_of_instr, f.timers_of_none⟩

/-- Settles O56: only the two answers Quit set `halt`, and no way of ending a step clears it. -/
theorem haltNeverCleared : Obligations.HaltNeverCleared := by
  refine ⟨fun s u hh h => ?_, fun s u h hu => ?_⟩
  · cases stepEnd h with
    | completed t u reach ok done => exact done.halt.2 (.inl ((reachedFrame reach).halt_kept hh))
    | ended o r he => exact (endRun_halt o r).trans ((endedFrame he).halt_kept hh)
    | waits x => exact hh
    | suspended x => exact hh
  · cases stepEnd h with
    | completed t u reach ok done =>
      have f := reachedFrame reach
      rcases done.halt.1 hu with ht | hq
      · exact (f.halt_of ht).imp_right .inr
      · exact .inr (.inl (f.pollAnswer ▸ hq))
    | ended o r he =>
      rw [endRun_halt] at hu
      exact ((endedFrame he).halt_of hu).imp_right .inr
    | waits x => exact .inl hu
    | suspended x => exact .inl hu

end Sys2Proof.Machine
end

section
/-! Proofs about the calls that a step makes (40_execution_cycle.md R97; 60_exceptions.md R193, R203 to R205): the snapshots,
the release of the display and the clock samples. -/

namespace Sys2Proof.Machine

/-- The calls hold at most one snapshot, which is of `fb` and for which there is the reason `P`, and as many releases of the
display and clock samples as said. -/
structure Tally (calls : List Call) (fb : Framebuffer) (P : Prop) (releases samples : Nat) : Prop where
  renders : calls.countP Call.isRender ≤ 1
  snapshot : ∀ fb', .render fb' ∈ calls → fb' = fb ∧ P
  releases : calls.countP (· == .leaveExclusive) = releases
  samples : calls.countP (· == .clockSample) = samples

/-- The call that a step makes before sub-steps 6 to 8, if it makes one: for a random byte or for a key. -/
def FirstCall (calls : List Call) : Prop := calls = [] ∨ calls = [.randomByte] ∨ calls = [.wait]

theorem FirstCall.tally {calls : List Call} {fb : Framebuffer} {P : Prop} (h : FirstCall calls) : Tally calls fb P 0 0 := by
  rcases h with rfl | rfl | rfl <;> exact ⟨by decide, by simp, by decide, by decide⟩

theorem FirstCall.tally_render {calls : List Call} {fb : Framebuffer} {P : Prop} (h : FirstCall calls) (hP : P) :
    Tally (.render fb :: calls) fb P 0 0 := by
  rcases h with rfl | rfl | rfl <;>
  exact ⟨by simp [List.countP_cons, Call.isRender], by simp [hP], by simp, by simp⟩

/-- A call that is no render counts as what it is. -/
theorem Tally.cons {calls : List Call} {fb : Framebuffer} {P : Prop} {releases samples : Nat}
    (h : Tally calls fb P releases samples) (c : Call) (hc : c.isRender = false) :
    Tally (c :: calls) fb P (releases + if c == .leaveExclusive then 1 else 0)
      (samples + if c == .clockSample then 1 else 0) where
  renders := by rw [List.countP_cons, hc]; exact h.renders
  snapshot := fun fb' hfb => by
    rcases List.mem_cons.1 hfb with rfl | hmem
    · cases hc
    · exact h.snapshot fb' hmem
  releases := by rw [List.countP_cons, h.releases]
  samples := by rw [List.countP_cons, h.samples]

/-- The step from `s` has a reason to hand a framebuffer over (R97, R174). -/
def State.MayRender (s : State) : Prop := s.dirty = true ∨ ∃ i, s.instrNow = some i ∧ i.writesFb

/-- Before sub-steps 6 to 8 a step makes at most one call. -/
theorem ReachedFrame.calls {s t : State} (f : ReachedFrame s t) : ∃ first, t.log = first ++ s.log ∧ FirstCall first := by
  rcases f.log with h | h | h
  · exact ⟨[], h, .inl rfl⟩
  · exact ⟨[.randomByte], h, .inr (.inl rfl)⟩
  · exact ⟨[.wait], h, .inr (.inr rfl)⟩

/-- Up to the render a step makes no other call than its first one and the render. -/
theorem ReachedFrame.calls_rendered {s t : State} (f : ReachedFrame s t) :
    ∃ calls, (if t.dirty = true then [.render t.fb] else []) ++ t.log = calls ++ s.log ∧
      Tally calls t.fb s.MayRender 0 0 := by
  obtain ⟨first, hlog, hfirst⟩ := f.calls
  split_ifs with hd
  · exact ⟨.render t.fb :: first, by rw [hlog]; rfl, hfirst.tally_render (f.dirty_of hd)⟩
  · exact ⟨first, hlog, hfirst.tally⟩

/-- When a run ends, the calls made before the exit sequence hold no release and no clock sample. -/
theorem calls_of_endsIn {s r : State} (h : EndsIn s r) :
    ∃ calls, r.log = calls ++ s.log ∧ Tally calls r.fb s.MayRender 0 0 := by
  cases h with
  | before => exact ⟨[], rfl, FirstCall.tally (.inl rfl)⟩
  | waiting x hm => exact ⟨[.wait], rfl, FirstCall.tally (.inr (.inr rfl))⟩
  | rendering t reach hd =>
    have f := reachedFrame reach
    obtain ⟨first, hlog, hfirst⟩ := f.calls
    exact ⟨.render t.fb :: first, congrArg _ hlog, hfirst.tally_render (f.dirty_of hd)⟩
  | polling t reach =>
    obtain ⟨calls, hlog, tally⟩ := (reachedFrame reach).calls_rendered
    refine ⟨.poll :: calls, ?_, ?_⟩
    · rw [calledPoll_log, rendered_log, hlog]; rfl
    · rw [calledPoll_fb, rendered_fb]
      exact tally.cons .poll rfl

/-- How often a step that ends in the mode `m` releases a display that is held or not (R193). -/
def releasesIn (m : Mode) (held : Bool) : Nat :=
  match m with
  | .stopped _ => if held = true then 1 else 0
  | .running => 0
  | .waitingForKey _ => 0

/-- How often a step that ends in the mode `m` samples the clock (R203). -/
def samplesIn (m : Mode) : Nat := if m = .running then 1 else 0

/-- The calls of a step that answers a next state. -/
theorem step_calls {s u : State} (h : step s = .next u) :
    ∃ calls, u.log = calls ++ s.log ∧
      Tally calls u.fb s.MayRender (releasesIn u.mode s.exclusive) (samplesIn u.mode) := by
  cases stepEnd h with
  | completed t u reach ok done =>
    obtain ⟨calls, hlog, tally⟩ := (reachedFrame reach).calls_rendered
    refine ⟨.clockSample :: .poll :: calls, ?_, ?_⟩
    · rw [done.log, hlog]; rfl
    · rw [done.kept.fb, done.mode]
      exact (tally.cons .poll rfl).cons .clockSample rfl
  | ended o r he =>
    obtain ⟨calls, hlog, tally⟩ := calls_of_endsIn he
    obtain ⟨⟨o', hmode⟩, -⟩ := endRun_stops o r
    rw [endRun_log, hlog, endRun_fb, hmode, ← (endedFrame he).exclusive]
    cases hx : r.exclusive with
    | true => exact ⟨.leaveExclusive :: calls, rfl, tally.cons .leaveExclusive rfl⟩
    | false => exact ⟨calls, rfl, tally⟩
  | waits x hm =>
    rw [keptWaiting_mode, hm]
    exact ⟨[], rfl, FirstCall.tally (.inl rfl)⟩
  | suspended x => exact ⟨[], rfl, FirstCall.tally (.inl rfl)⟩

/-- Settles O38: the new calls are those that the step adds in front of the history. -/
theorem oneSnapshotPerStep : Obligations.OneSnapshotPerStep := by
  intro s u h
  obtain ⟨calls, hlog, tally⟩ := step_calls h
  exact ⟨calls, hlog, tally.renders, fun fb hfb => (tally.snapshot fb hfb).1, fun ⟨fb, hfb⟩ => (tally.snapshot fb hfb).2⟩

theorem countCalls_of_log {s u : State} {calls : List Call} (h : u.log = calls ++ s.log) (p : Call → Bool) :
    u.countCalls p = s.countCalls p + calls.countP p := by
  rw [State.countCalls, h, List.countP_append, Nat.add_comm]; rfl

theorem step_exclusive {s u : State} (h : step s = .next u) :
    (u.exclusive = false ∧ ∃ o, u.mode = .stopped o) ∨ (u.exclusive = s.exclusive ∧ ∀ o, u.mode ≠ .stopped o) := by
  cases stepEnd h with
  | completed t u reach ok done =>
    exact .inr ⟨done.exclusive.trans (reachedFrame reach).exclusive, by simp [done.mode]⟩
  | ended o r he => exact .inl (endRun_stops o r).symm
  | waits x hm => exact .inr ⟨rfl, by simp [hm]⟩
  | suspended x => exact .inr ⟨rfl, by simp⟩

/-- Settles O42: the release is counted by the mode that the step ends in. -/
theorem exitReleasesDisplayOnce : Obligations.ExitReleasesDisplayOnce := by
  intro s u h
  obtain ⟨calls, hlog, tally⟩ := step_calls h
  have count := countCalls_of_log hlog (· == .leaveExclusive)
  rw [tally.releases] at count
  rcases step_exclusive h with ⟨hleft, o, hmode⟩ | ⟨hkept, hgoes⟩
  · rw [hmode] at count
    exact .inl ⟨⟨o, hmode⟩, hleft, count⟩
  · refine .inr ⟨hgoes, hkept, count.trans ?_⟩
    cases hmode : u.mode with
    | stopped o => exact absurd hmode (hgoes o)
    | running => rfl
    | waitingForKey x => rfl

/-- A clock sample is never below the one before it (R204). -/
theorem lastSample_le_clockSample (s : State) : s.env.lastSample ≤ s.clockSample := Nat.le_add_right _ _

theorem step_tickInterval {s u : State} (h : step s = .next u) : u.env.tickInterval = s.env.tickInterval := by
  cases stepEnd h with
  | completed t u reach ok done => exact done.tickInterval.trans (reachedFrame reach).tickInterval
  | ended o r he => exact (endRun_tickInterval o r).trans (endedFrame he).tickInterval
  | waits x => rfl
  | suspended x => rfl

theorem step_lastSample {s u : State} (h : step s = .next u) :
    u.env.lastSample = if u.mode = .running then s.clockSample else s.env.lastSample := by
  cases stepEnd h with
  | completed t u reach ok done => rw [if_pos done.mode, done.lastSample, (reachedFrame reach).clockSample]
  | ended o r he => rw [if_neg (endRun_not_running o r), endRun_lastSample, (endedFrame he).lastSample]
  | waits x hm => rw [if_neg (by simp [hm])]; rfl
  | suspended x => rw [if_neg (by simp)]

/-- Settles O43: only a step that ends running samples the clock. -/
theorem clockNeverRunsBackward : Obligations.ClockNeverRunsBackward := by
  intro s u h
  obtain ⟨calls, hlog, tally⟩ := step_calls h
  have count := countCalls_of_log hlog (· == .clockSample)
  have sample := step_lastSample h
  rw [tally.samples, samplesIn] at count
  refine ⟨?_, step_tickInterval h, fun hrun => ?_, fun hnot => ?_⟩
  · rw [sample]
    split_ifs
    · exact lastSample_le_clockSample s
    · exact Nat.le_refl _
  · rwa [if_pos hrun] at count
  · rw [if_neg hnot] at count sample
    exact ⟨sample, count⟩

end Sys2Proof.Machine
end

section
/-! Proofs about the invariant of a run (10_state.md R25 to R36, 40_execution_cycle.md R103): what execute keeps of it, what
every step keeps, and with it the bound on the timers over a run (60_exceptions.md R200, R201). -/

namespace Sys2Proof.Machine

/-! ## The part of the invariant that only execute and the wait step can break -/

/-- The part of the invariant that speaks of memory, the pc and the stack. -/
structure InstrInv (s : State) : Prop where
  mem_wf : s.mem.wf = true
  pc_le : s.pc.toNat ≤ 0x10FE
  sp_le : s.sp ≤ 16
  returns_le : ∀ k, k < s.sp → (s.slot k).toNat ≤ 0x1000

theorem State.Inv.instrInv {s : State} (h : s.Inv) : InstrInv s := ⟨h.mem_wf, h.pc_le, h.sp_le, h.returns_le⟩

theorem InstrInv.of_same {s t : State} (h : InstrInv s) (kept : SameInstrState s t) : InstrInv t where
  mem_wf := kept.mem ▸ h.mem_wf
  pc_le := kept.pc ▸ h.pc_le
  sp_le := kept.sp ▸ h.sp_le
  returns_le := fun k hk => by
    rw [slot_congr kept.stack k]
    exact h.returns_le k (kept.sp ▸ hk)

/-- Advancing by 2 or by 4 from a pc that can be fetched from stays far below the bound. -/
theorem pc_le_advance {pc d : Addr} (hpc : pc.toNat ≤ 0xFFE) (hd : d.toNat ≤ 4) : (pc + d).toNat ≤ 0x10FE := by
  rw [toNat_add_of_fetchable pc d hpc hd]
  omega

/-- What an effect that leaves memory and the stack alone must show: its pc is within the bound. -/
theorem InstrInv.of_pc {s t : State} (h : InstrInv s) (hmem : t.mem = s.mem) (hstack : t.stack = s.stack)
    (hsp : t.sp = s.sp) (hpc : t.pc.toNat ≤ 0x10FE) : InstrInv t where
  mem_wf := hmem ▸ h.mem_wf
  pc_le := hpc
  sp_le := hsp ▸ h.sp_le
  returns_le := fun k hk => by
    rw [slot_congr hstack k]
    exact h.returns_le k (hsp ▸ hk)

theorem InstrEffect.instrInv {i : Instr} {s t : State} (heff : InstrEffect i s t) (h : InstrInv s)
    (hpc : s.pc.toNat ≤ 0xFFE) (hwf : i.wf = true) : InstrInv t := by
  have next_le : (s.pc + 2).toNat ≤ 0x10FE := pc_le_advance hpc (by decide)
  have skip_le : (s.pc + 4).toNat ≤ 0x10FE := pc_le_advance hpc (by decide)
  cases heff with
  | skip c =>
    cases c with
    | true => exact h.of_pc rfl rfl rfl skip_le
    | false => exact h.of_pc rfl rfl rfl next_le
  | jump a ha => exact h.of_pc rfl rfl rfl (ha hwf)
  | store a bs => exact ⟨writeBytes_wf bs s.mem a h.mem_wf, next_le, h.sp_le, h.returns_le⟩
  | call a hi hroom =>
    subst hi
    refine ⟨h.mem_wf, (toNat_le_of_wfAddr hwf).trans (by decide), hroom, fun k hk => ?_⟩
    have slots := slot_push s (s.pc + 2) k
    split_ifs at slots with htop
    · refine (congrArg BitVec.toNat slots).trans_le ?_
      rw [toNat_add_of_fetchable s.pc 2 hpc (by decide)]
      exact Nat.add_le_add_right hpc 2
    · refine (congrArg BitVec.toNat slots).trans_le (h.returns_le k ?_)
      have below : k < s.sp + 1 := hk
      omega
  | ret hi hne =>
    refine ⟨h.mem_wf, (h.returns_le (s.sp - 1) (by omega)).trans (by decide), (Nat.sub_le s.sp 1).trans h.sp_le,
      fun k hk => h.returns_le k ?_⟩
    have below : k < s.sp - 1 := hk
    omega
  | wait x => exact h.of_pc rfl rfl rfl (hpc.trans (by decide))
  | _ => exact h.of_pc rfl rfl rfl next_le

/-- The instruction of a cycle was fetched within memory, and it is well-formed. -/
theorem fetched_of_instrNow {s : State} {i : Instr} (h : s.instrNow = some i) : s.pc.toNat ≤ 0xFFE ∧ i.wf = true := by
  obtain ⟨-, -, hf⟩ := (instrNow_eq_some s i).1 h
  rcases fetchInstr_spec s with ⟨-, he⟩ | ⟨-, r, -, he⟩ | ⟨hpc, j, hd, hj⟩
  · cases he.symm.trans hf
  · cases he.symm.trans hf
  · cases hj.symm.trans hf
    exact ⟨hpc, (encode_of_decode hd).1⟩

theorem ReachesRender.instrInv {s t : State} (reach : ReachesRender s t) (h : s.Inv) : InstrInv t := by
  cases reach with
  | executed i hi he hm =>
    obtain ⟨hpc, hwf⟩ := fetched_of_instrNow hi
    rcases exec_answer he with ⟨r, -, rfl⟩ | heff
    · exact absurd hm (endRun_not_running _ s)
    · exact heff.instrInv h.instrInv hpc hwf
  | key x k hm =>
    exact h.instrInv.of_pc rfl rfl rfl (pc_le_advance (h.waiting_pc x hm) (by decide))
  | quit x hm =>
    exact h.instrInv.of_pc rfl rfl rfl (pc_le_advance (h.waiting_pc x hm) (by decide))

theorem EndsIn.instrInv {s r : State} (he : EndsIn s r) (h : s.Inv) : InstrInv r := by
  cases he with
  | before => exact h.instrInv
  | waiting x hm => exact h.instrInv.of_same ⟨rfl, rfl, rfl, rfl, rfl, rfl, rfl⟩
  | rendering t reach hd => exact (reach.instrInv h).of_same ⟨rfl, rfl, rfl, rfl, rfl, rfl, rfl⟩
  | polling t reach =>
    exact (reach.instrInv h).of_same ⟨rendered_mem t, rendered_V t, rendered_I t, rendered_pc t, rendered_stack t,
      rendered_sp t, rendered_fb t⟩

/-! ## The invariant -/

/-- At most one key is pressed in any latch that a poll rebuilt (R98). -/
theorem CycleCompleted.one_key {t u : State} (done : CycleCompleted t u) (j k : KeyCode) (hj : u.pressed j = true)
    (hk : u.pressed k = true) : j = k :=
  PollAnswer.key.inj (((done.pressed j).1 hj).symm.trans ((done.pressed k).1 hk))

/-- A completed cycle leaves the last tick at its own sample, or where it was. -/
theorem CycleCompleted.lastTick_le {t u : State} (done : CycleCompleted t u) (h : t.lastTick ≤ t.env.lastSample) :
    u.lastTick ≤ u.env.lastSample := by
  rw [done.lastSample]
  by_cases hticks : t.lastTick + t.env.tickInterval ≤ t.clockSample
  · exact (done.timers.1 hticks).2.2.le
  · rw [(done.timers.2 (Nat.lt_of_not_le hticks)).2.2]
    exact h.trans (lastSample_le_clockSample t)

theorem step_inv {s u : State} (h : s.Inv) (hs : step s = .next u) : u.Inv := by
  cases stepEnd hs with
  | completed t u reach ok done =>
    have f := reachedFrame reach
    have instr := (reach.instrInv h).of_same done.kept
    exact
      { instr with
        one_key := done.one_key
        tick_le := done.lastTick_le (by rw [f.lastTick, f.lastSample]; exact h.tick_le)
        interval_ge := by rw [done.tickInterval, f.tickInterval]; exact h.interval_ge
        waiting_pc := fun x hx => absurd (done.mode.symm.trans hx) (by simp)
        clean := fun _ => done.dirty
        stopped_left := fun o ho => absurd (done.mode.symm.trans ho) (by simp) }
  | ended o r he =>
    have f := endedFrame he
    have instr := (he.instrInv h).of_same (endRun_sameInstrState o r)
    obtain ⟨⟨o', hmode⟩, hleft⟩ := endRun_stops o r
    exact
      { instr with
        one_key := fun j k => by
          simp only [State.pressed, endRun_keys, f.keys]
          exact h.one_key j k
        tick_le := by simpa [f.lastTick, f.lastSample] using h.tick_le
        interval_ge := by simpa [f.tickInterval] using h.interval_ge
        waiting_pc := fun x hx => absurd (hmode.symm.trans hx) (by simp)
        clean := fun hgoes => absurd hmode (hgoes o')
        stopped_left := fun _ _ => hleft }
  | waits x hm =>
    exact
      { h.instrInv with
        one_key := h.one_key
        tick_le := h.tick_le
        interval_ge := h.interval_ge
        waiting_pc := h.waiting_pc
        clean := h.clean
        stopped_left := h.stopped_left }
  | suspended x hi =>
    have hgoes : ∀ o, s.mode ≠ .stopped o := by simp [((instrNow_eq_some s _).1 hi).1]
    exact
      { h.instrInv with
        one_key := h.one_key
        tick_le := h.tick_le
        interval_ge := h.interval_ge
        waiting_pc := fun _ _ => (fetched_of_instrNow hi).1
        clean := fun _ => h.clean hgoes
        stopped_left := by intro o ho; cases ho }

/-- Settles O50: every way of ending a step keeps each clause. -/
theorem invariantKept : Obligations.InvariantKept := fun _ _ => step_inv

/-! ## The timers over a run (R201) -/

/-- From `s` to `t` the timers made `k` ticks, which took at least `k` intervals of time. -/
structure Ticked (s t : State) (k : Nat) : Prop where
  DT : t.DT.toNat = s.DT.toNat - k
  ST : t.ST.toNat = s.ST.toNat - k
  time : s.lastTick + k * s.env.tickInterval ≤ t.lastTick
  tickInterval : t.env.tickInterval = s.env.tickInterval

theorem Ticked.zero {s t : State} (hD : t.DT = s.DT) (hS : t.ST = s.ST) (hl : t.lastTick = s.lastTick)
    (hi : t.env.tickInterval = s.env.tickInterval) : Ticked s t 0 := by
  refine ⟨by rw [hD]; rfl, by rw [hS]; rfl, by rw [hl, Nat.zero_mul]; exact Nat.le_refl _, hi⟩

theorem Ticked.trans {s t u : State} {j k : Nat} (h : Ticked s t j) (h' : Ticked t u k) : Ticked s u (j + k) := by
  refine ⟨by rw [h'.DT, h.DT, Nat.sub_sub], by rw [h'.ST, h.ST, Nat.sub_sub], ?_, h'.tickInterval.trans h.tickInterval⟩
  have first := h.time
  have second := h'.time
  rw [h.tickInterval] at second
  rw [Nat.add_mul]
  omega

/-- A timer step makes one tick, which takes an interval, or none. -/
theorem TimerStepAt.ticked {s t : State} {c : Nat} (h : TimerStepAt s t c)
    (hi : t.env.tickInterval = s.env.tickInterval) : ∃ k, Ticked s t k := by
  by_cases hticks : s.lastTick + s.env.tickInterval ≤ c
  · obtain ⟨hD, hS, hl⟩ := h.1 hticks
    exact ⟨1, hD, hS, by rw [Nat.one_mul, hl]; exact hticks, hi⟩
  · obtain ⟨hD, hS, hl⟩ := h.2 (Nat.lt_of_not_le hticks)
    exact ⟨0, .zero hD hS hl hi⟩

/-- A step that executes neither `Fx15` nor `Fx18` leaves the timers to the ticks. -/
theorem step_ticked {s u : State} (hs : step s = .next u)
    (hq : ∀ i, s.instrNow = some i → ¬ i.writesDT ∧ ¬ i.writesST) : ∃ k, Ticked s u k := by
  have unwritten : ∀ t : State,
      (∀ i, s.instrNow = some i → (¬ i.writesDT → t.DT = s.DT) ∧ (¬ i.writesST → t.ST = s.ST)) →
      (s.instrNow = none → t.DT = s.DT ∧ t.ST = s.ST) → t.DT = s.DT ∧ t.ST = s.ST := by
    intro t of_instr of_none
    cases hi : s.instrNow with
    | none => exact of_none hi
    | some i => exact ⟨(of_instr i hi).1 (hq i hi).1, (of_instr i hi).2 (hq i hi).2⟩
  cases stepEnd hs with
  | completed t u reach ok done =>
    have f := reachedFrame reach
    obtain ⟨hD, hS⟩ := unwritten t f.timers_of_instr f.timers_of_none
    exact (done.timers.congr hD.symm hS.symm f.lastTick.symm f.tickInterval.symm).ticked
      (done.tickInterval.trans f.tickInterval)
  | ended o r he =>
    have f := endedFrame he
    obtain ⟨hD, hS⟩ := unwritten r f.timers_of_instr f.timers_of_none
    exact ⟨0, .zero (by simp [hD]) (by simp [hS]) (by simp [f.lastTick]) (by simp [f.tickInterval])⟩
  | waits x => exact ⟨0, .zero rfl rfl rfl rfl⟩
  | suspended x => exact ⟨0, .zero rfl rfl rfl rfl⟩

/-- Over a run without `Fx15` and `Fx18` the invariant holds and the timers fall by ticks alone. -/
theorem run_ticked {s t : State} (h : s.Inv) (run : RunNoTimerWrite s t) : t.Inv ∧ ∃ k, Ticked s t k := by
  induction run with
  | refl => exact ⟨h, 0, .zero rfl rfl rfl rfl⟩
  | step run hs hq ih =>
    obtain ⟨hinv, j, hj⟩ := ih
    obtain ⟨k, hk⟩ := step_ticked hs hq
    exact ⟨step_inv hinv hs, j + k, hj.trans hk⟩

/-- Settles O52: each tick took an interval, and the last one was at a sample already taken. -/
theorem timersBoundedByClock : Obligations.TimersBoundedByClock := by
  intro s t h run
  obtain ⟨hinv, k, ticked⟩ := run_ticked h run
  have positive : 0 < s.env.tickInterval := Nat.lt_of_lt_of_le (by decide) h.interval_ge
  have bound : k ≤ (t.env.lastSample - s.lastTick) / s.env.tickInterval := by
    rw [Nat.le_div_iff_mul_le positive]
    have time := ticked.time
    have sampled := hinv.tick_le
    omega
  rw [ticked.DT, ticked.ST]
  omega

end Sys2Proof.Machine
end

section
/-! Proofs about what cannot be observed (10_state.md R27, R29): the sound timer by any instruction, and the content of a
stale stack slot by any step. -/

namespace Sys2Proof.Machine

/-! ## The stack's slots and `ST` in the operations of execute -/

/-- The state with other content in the stack's slots and in `ST`. -/
def State.hide (s : State) (stack : Vector Addr 16) (v : Byte) : State := { s with stack := stack, ST := v }

theorem endRun_hide (o : RunOutcome) (s : State) (stack : Vector Addr 16) (v : Byte) :
    endRun o (s.hide stack v) = (endRun o s).hide stack v := by
  cases h : s.exclusive
  · rw [endRun_free o s h, endRun_free o (s.hide stack v) h]; rfl
  · rw [endRun_held o s h, endRun_held o (s.hide stack v) h]; rfl

theorem advance_hide (d : Dispatched) (s : State) (stack : Vector Addr 16) (v : Byte) :
    advance d (s.hide stack v) = (advance d s).hide stack v := by
  cases d <;> rfl

theorem guardAccess_hide (i : Instr) (count : Nat) (s : State) (f : State → State) (stack : Vector Addr 16) (v : Byte)
    (hf : f (s.hide stack v) = (f s).hide stack v) :
    guardAccess i count (s.hide stack v) f = (guardAccess i count s f).hide stack v := by
  rcases badAddr_spec s count with ⟨-, hin⟩ | ⟨-, hpos, hout⟩
  · rw [guardAccess_ok i count s f hin, guardAccess_ok i count (s.hide stack v) f hin, hf]
  · rw [guardAccess_bad i count s f hpos hout, guardAccess_bad i count (s.hide stack v) f hpos hout]
    exact endRun_hide _ s stack v

theorem keyTest_hide (i : Instr) (x : RegIdx) (want : Bool) (s : State) (stack : Vector Addr 16) (v : Byte) :
    keyTest i x want (s.hide stack v) = (keyTest i x want s).hide stack v := by
  by_cases h : (s.reg x).toNat < 16
  · rw [keyTest_of_key i x want s ⟨_, h⟩ rfl, keyTest_of_key i x want (s.hide stack v) ⟨_, h⟩ rfl]
    exact advance_hide _ s stack v
  · have large : 0xF < (s.reg x).toNat := Nat.not_lt.1 h
    rw [keyTest_of_large i x want s large, keyTest_of_large i x want (s.hide stack v) large]
    exact endRun_hide _ s stack v

/-- No instruction but `2nnn` and `00EE` uses the stack's slots, and none but `Fx18` writes `ST`; none reads `ST`. -/
theorem exec_hide {i : Instr} {s t : State} (hstack : ¬ i.usesStack) (hST : ¬ i.writesST) (he : exec i s = .next t)
    (stack : Vector Addr 16) (v : Byte) : exec i (s.hide stack v) = .next (t.hide stack v) := by
  cases i with
  | call a => exact absurd (.inr ⟨a, rfl⟩) hstack
  | ret => exact absurd (.inl rfl) hstack
  | ldSTVx x => exact absurd ⟨x, rfl⟩ hST
  | skp x => cases he; exact congrArg _ (keyTest_hide (.skp x) x true s stack v)
  | sknp x => cases he; exact congrArg _ (keyTest_hide (.sknp x) x false s stack v)
  | seImm x nn => cases he; exact congrArg _ (advance_hide _ s stack v)
  | sneImm x nn => cases he; exact congrArg _ (advance_hide _ s stack v)
  | seReg x y => cases he; exact congrArg _ (advance_hide _ s stack v)
  | sneReg x y => cases he; exact congrArg _ (advance_hide _ s stack v)
  | ldB x => cases he; exact congrArg _ (guardAccess_hide _ _ s _ stack v rfl)
  | stRegs x => cases he; exact congrArg _ (guardAccess_hide _ _ s _ stack v rfl)
  | ldRegs x => cases he; exact congrArg _ (guardAccess_hide _ _ s _ stack v rfl)
  | drw x y n => cases he; exact congrArg _ (guardAccess_hide _ _ s _ stack v rfl)
  | _ => cases he; rfl

/-! ## The sound timer (R29) -/

theorem hide_ST_back (t : State) (stack : Vector Addr 16) (v : Byte) (h : t.stack = stack) :
    { t.hide stack v with ST := t.ST } = t := by
  rw [← h]; rfl

/-- A fault is the same fault whatever `ST` holds. -/
theorem raise_ST_back (r : FaultRecord) (s : State) (v : Byte) :
    { raise r { s with ST := v } with ST := (raise r s).ST } = raise r s := by
  have other : raise r { s with ST := v } = (raise r s).hide s.stack v := endRun_hide (.fault r) s s.stack v
  rw [other]
  exact hide_ST_back _ s.stack v (endRun_stack _ s)

/-- Settles O58: `Fx18` overwrites `ST`, the two instructions of the stack do not look at it, and no other instruction
does. -/
theorem soundTimerUnobservable : Obligations.SoundTimerUnobservable := by
  intro i s v
  by_cases hST : i.writesST
  · obtain ⟨x, rfl⟩ := hST
    exact ⟨_, _, rfl, rfl, rfl⟩
  by_cases hstack : i.usesStack
  · rcases hstack with rfl | ⟨a, rfl⟩
    · by_cases h : s.sp = 0
      · exact ⟨_, _, exec_ret_of_empty s h, exec_ret_of_empty { s with ST := v } h, raise_ST_back _ s v⟩
      · exact ⟨_, _, exec_ret_of_nonempty s h, exec_ret_of_nonempty { s with ST := v } h, rfl⟩
    · by_cases h : s.sp < 16
      · exact ⟨_, _, exec_call_of_room a s h, exec_call_of_room a { s with ST := v } h, rfl⟩
      · have full := Nat.not_lt.1 h
        exact ⟨_, _, exec_call_of_full a s full, exec_call_of_full a { s with ST := v } full, raise_ST_back _ s v⟩
  · obtain ⟨t, he, -⟩ := exec_cases i s
    have stack := (exec_stack_of_not_usesStack i s t hstack he).1
    exact ⟨t, _, he, exec_hide hstack hST he s.stack v, hide_ST_back t s.stack v stack⟩

/-! ## The stack's slots in the other sub-steps -/

/-- The state with other content in the stack's slots. -/
def State.withStack (s : State) (stack : Vector Addr 16) : State := { s with stack := stack }

theorem endRun_withStack (o : RunOutcome) (s : State) (stack : Vector Addr 16) :
    endRun o (s.withStack stack) = (endRun o s).withStack stack := by
  cases h : s.exclusive
  · rw [endRun_free o s h, endRun_free o (s.withStack stack) h]; rfl
  · rw [endRun_held o s h, endRun_held o (s.withStack stack) h]; rfl

theorem whileRunning_withStack (s : State) (f : State → State) (stack : Vector Addr 16)
    (hf : f (s.withStack stack) = (f s).withStack stack) :
    (s.withStack stack).whileRunning f = (s.whileRunning f).withStack stack := by
  cases hm : s.mode with
  | running => rw [whileRunning_running s f hm, whileRunning_running (s.withStack stack) f hm, hf]
  | waitingForKey x => rw [whileRunning_waiting s f x hm, whileRunning_waiting (s.withStack stack) f x hm]
  | stopped o => rw [whileRunning_stopped s f o hm, whileRunning_stopped (s.withStack stack) f o hm]

theorem render_withStack (s : State) (stack : Vector Addr 16) :
    render (s.withStack stack) = (render s).withStack stack := by
  have dirty : (s.withStack stack).dirty = s.dirty := rfl
  have answer : (s.withStack stack).displayAnswer = s.displayAnswer := rfl
  rw [render, render, dirty, answer]
  cases s.dirty with
  | false => rfl
  | true =>
    cases s.displayAnswer with
    | ok => rfl
    | error e => exact endRun_withStack _ (s.calledDisplay (.render s.fb)) stack

theorem poll_withStack (s : State) (stack : Vector Addr 16) : poll (s.withStack stack) = (poll s).withStack stack := by
  have answer : (s.withStack stack).pollAnswer = s.pollAnswer := rfl
  rw [poll, poll, answer]
  cases s.pollAnswer with
  | noEvent => rfl
  | key j => rfl
  | quit => rfl
  | error e => exact endRun_withStack _ s.calledPoll stack

theorem timerStep_withStack (s : State) (stack : Vector Addr 16) :
    timerStep (s.withStack stack) = (timerStep s).withStack stack := by
  have ticks : (s.withStack stack).ticksAt (s.withStack stack).clockSample = s.ticksAt s.clockSample := rfl
  rw [timerStep, timerStep, ticks]
  cases s.ticksAt s.clockSample <;> rfl

theorem finishCycle_withStack (s : State) (stack : Vector Addr 16) :
    finishCycle (s.withStack stack) = (finishCycle s).withStack stack := by
  rw [finishCycle, finishCycle, render_withStack, whileRunning_withStack _ poll _ (poll_withStack _ _),
    whileRunning_withStack _ timerStep _ (timerStep_withStack _ _)]

theorem resume_withStack (s : State) (stack : Vector Addr 16) :
    resume (s.withStack stack) = (resume s).withStack stack :=
  finishCycle_withStack { s with pc := s.pc + 2, mode := .running } stack

theorem waitStep_withStack (x : RegIdx) (s : State) (stack : Vector Addr 16) :
    waitStep x (s.withStack stack) = (waitStep x s).withStack stack := by
  have answer : (s.withStack stack).waitAnswer = s.waitAnswer := rfl
  rw [waitStep, waitStep, answer]
  cases s.waitAnswer with
  | notYet => rfl
  | key k => exact resume_withStack (s.calledWait.setReg x (BitVec.ofNat 8 k.val)) stack
  | quit => exact resume_withStack { s.calledWait with halt := true } stack
  | error e => exact endRun_withStack _ s.calledWait stack

/-! ## Stale slots (R27) -/

/-- The two slot files agree below `sp`. -/
theorem sameButStaleSlots_iff (s t : State) :
    SameButStaleSlots s t ↔ ∃ stack, t = s.withStack stack ∧ ∀ k, k < s.sp → (s.withStack stack).slot k = s.slot k := by
  constructor
  · rintro ⟨hsame, hslots⟩
    have ht : t = s.withStack t.stack := by rw [← hsame]; rfl
    exact ⟨t.stack, ht, fun k hk => ht ▸ hslots k hk⟩
  · rintro ⟨stack, rfl, hslots⟩
    exact ⟨rfl, hslots⟩

/-- An operation that keeps the stack and does not look at the slots keeps the relation. -/
theorem sameButStaleSlots_of_kept {s s' : State} {stack : Vector Addr 16} (hstack : s'.stack = s.stack)
    (hsp : s'.sp = s.sp) (hslots : ∀ k, k < s.sp → (s.withStack stack).slot k = s.slot k) : SameButStaleSlots s' (s'.withStack stack) := by
  refine ⟨rfl, fun k hk => ?_⟩
  rw [slot_congr hstack k, ← hslots k (hsp ▸ hk)]
  rfl

/-- The instructions that use the stack read and write only slots that are occupied after the push or before the pop. -/
theorem exec_stack_staleSlots {i : Instr} {s s' : State} {stack : Vector Addr 16} (hi : i.usesStack)
    (hslots : ∀ k, k < s.sp → (s.withStack stack).slot k = s.slot k) (he : exec i s = .next s') :
    ∃ stack', exec i (s.withStack stack) = .next (s'.withStack stack') ∧ SameButStaleSlots s' (s'.withStack stack') := by
  rcases hi with rfl | ⟨a, rfl⟩
  · by_cases h : s.sp = 0
    · rw [exec_ret_of_empty s h] at he
      cases he
      refine ⟨stack, ?_, sameButStaleSlots_of_kept (endRun_stack _ s) (endRun_sp _ s) hslots⟩
      rw [exec_ret_of_empty (s.withStack stack) h]
      exact congrArg _ (endRun_withStack _ s stack)
    · rw [exec_ret_of_nonempty s h] at he
      cases he
      have top : (s.withStack stack).top = s.top := hslots (s.sp - 1) (by omega)
      refine ⟨stack, ?_, rfl, fun k hk => hslots k ?_⟩
      · rw [exec_ret_of_nonempty (s.withStack stack) h, top]; rfl
      · have below : k < s.sp - 1 := hk
        omega
  · by_cases h : s.sp < 16
    · rw [exec_call_of_room a s h] at he
      cases he
      refine ⟨stack.setIfInBounds s.sp (s.pc + 2), exec_call_of_room a (s.withStack stack) h, rfl, fun k hk => ?_⟩
      have pushed := slot_push s (s.pc + 2) k
      have pushed' := slot_push (s.withStack stack) (s.pc + 2) k
      refine pushed'.trans (Eq.trans ?_ pushed.symm)
      show (if k = s.sp ∧ s.sp < 16 then s.pc + 2 else (s.withStack stack).slot k) = _
      split_ifs with htop
      · rfl
      · have below : k < s.sp + 1 := hk
        exact hslots k (by omega)
    · have full := Nat.not_lt.1 h
      rw [exec_call_of_full a s full] at he
      cases he
      refine ⟨stack, ?_, sameButStaleSlots_of_kept (endRun_stack _ s) (endRun_sp _ s) hslots⟩
      rw [exec_call_of_full a (s.withStack stack) full]
      exact congrArg _ (endRun_withStack _ s stack)

theorem exec_staleSlots {i : Instr} {s s' : State} {stack : Vector Addr 16}
    (hslots : ∀ k, k < s.sp → (s.withStack stack).slot k = s.slot k) (he : exec i s = .next s') :
    ∃ stack', exec i (s.withStack stack) = .next (s'.withStack stack') ∧ SameButStaleSlots s' (s'.withStack stack') := by
  by_cases hi : i.usesStack
  · exact exec_stack_staleSlots hi hslots he
  obtain ⟨hstack, hsp⟩ := exec_stack_of_not_usesStack i s s' hi he
  refine ⟨stack, ?_, sameButStaleSlots_of_kept hstack hsp hslots⟩
  by_cases hST : i.writesST
  · obtain ⟨x, rfl⟩ := hST
    cases he; rfl
  · obtain ⟨-, -, -, -, -, sound, -⟩ := onlyNamedInstructionsWrite i s s' he
    refine (exec_hide hi hST he stack s.ST).trans ?_
    rw [← sound hST]; rfl

theorem step_staleSlots {s s' : State} {stack : Vector Addr 16}
    (hslots : ∀ k, k < s.sp → (s.withStack stack).slot k = s.slot k) (h : step s = .next s') :
    ∃ stack', step (s.withStack stack) = .next (s'.withStack stack') ∧ SameButStaleSlots s' (s'.withStack stack') := by
  rcases step_cases s s' h with ⟨x, hm, rfl⟩ | ⟨hm, hh, rfl⟩ | ⟨hm, hh, r, hf, rfl⟩ | ⟨hm, hh, i, t, hf, he, rfl⟩
  · obtain ⟨hstack, hsp⟩ := waitStep_stack x s
    refine ⟨stack, ?_, sameButStaleSlots_of_kept hstack hsp hslots⟩
    rw [step_waiting (s.withStack stack) x hm, waitStep_withStack]
  · refine ⟨stack, ?_, sameButStaleSlots_of_kept (endRun_stack _ s) (endRun_sp _ s) hslots⟩
    rw [step_halted (s.withStack stack) hm hh, endRun_withStack]
  · refine ⟨stack, ?_, sameButStaleSlots_of_kept (endRun_stack _ s) (endRun_sp _ s) hslots⟩
    rw [step_unfetched (s.withStack stack) r hm hh hf]
    exact congrArg _ (endRun_withStack _ s stack)
  · obtain ⟨stack', he', -, hslots'⟩ := exec_staleSlots hslots he
    have kept := whileRunning_sameInstrState t finishCycle (finishCycle_sameInstrState t)
    refine ⟨stack', ?_, sameButStaleSlots_of_kept kept.stack kept.sp hslots'⟩
    rw [step_executed (s.withStack stack) i _ hm hh hf he',
      whileRunning_withStack t finishCycle stack' (finishCycle_withStack t stack')]

/-- A step answers a next state unless the run has ended (R35). -/
theorem step_next_or_stopped (s : State) :
    (∃ u, step s = .next u) ∨ ∃ o, s.mode = .stopped o ∧ step s = .fault (.runEnded o) := by
  cases hm : s.mode with
  | stopped o => exact .inr ⟨o, rfl, step_stopped s o hm⟩
  | waitingForKey x => exact .inl ⟨_, step_waiting s x hm⟩
  | running =>
    cases hh : s.halt with
    | true => exact .inl ⟨_, step_halted s hm hh⟩
    | false =>
      cases hf : fetchInstr s with
      | error r => exact .inl ⟨_, step_unfetched s r hm hh hf⟩
      | ok i =>
        obtain ⟨t, he, -⟩ := exec_cases i s
        exact .inl ⟨_, step_executed s i t hm hh hf he⟩

/-- Settles O59: a step of either state takes the same way, and the slots below `sp` still agree after it. -/
theorem staleSlotsUnobservable : Obligations.StaleSlotsUnobservable := by
  intro s t hsame
  obtain ⟨stack, rfl, hslots⟩ := (sameButStaleSlots_iff s t).1 hsame
  rcases step_next_or_stopped s with ⟨u, hu⟩ | ⟨o, hm, hfault⟩
  · obtain ⟨stack', hstep, hsame'⟩ := step_staleSlots hslots hu
    rw [hu]
    refine ⟨fun s' h => ?_, fun f h => ?_, fun r h => ?_⟩ <;> cases h
    exact ⟨_, hstep, hsame'⟩
  · rw [hfault, step_stopped (s.withStack stack) o hm]
    exact ⟨fun s' h => (by cases h), fun f h => h, fun r h => h⟩

end Sys2Proof.Machine
end
